-- ==== Sys2Proof/Word.lean ====
section
/-! DEFINITION. The word and sample types of the block (spec/00_scope.md R9, R11; spec/30_encoding.md R56). -/
namespace Sys2Proof

/-- The command byte `cmd[7:0]` (30_encoding.md R55, R56). -/
abbrev Byte := BitVec 8

/-- A sample: an exact rational (00_scope.md R9; 92_eei_decisions.md D1). A NaN or an infinity has no
constructor (60_exceptions.md R177; log 11). -/
abbrev Sample := ℚ

/-- The name by which the host binds one of its sample buffers to a command (20_memory.md R41; log 5). -/
abbrev BufferId := Nat

/-- The text of a bit string: its digits, bit `W-1` first (30_encoding.md R68). -/
abbrev BitText := List Char

end Sys2Proof
end

