-- ==== Sys2Proof/Config.lean ====
section
/-! DEFINITION. What an implementation fixes (spec/00_scope.md R8). -/
namespace Sys2Proof

/-- The two parameters the spec leaves OPEN (00_scope.md R8; 92_eei_decisions.md D7, D8). No step of the
machine depends on either: they say which commands a port can carry and which widths an implementation
promises. -/
structure Config where
  /-- `CFG_INT_BITS`: the width of the two's-complement ports that carry `W` and `F` (log 6). -/
  cfgIntBits : Nat
  /-- `WMAX`: the largest word width, or `none` where it is unbounded (log 7). -/
  wMax : Option Nat
deriving DecidableEq, Repr

/-- The values R8 suggests: 32 bits, and no bound on the width. -/
def Config.suggested : Config := { cfgIntBits := 32, wMax := none }

/-- The code a host presents for an omitted overflow policy: `Wrap` (30_encoding.md R60, R62). -/
def Config.defaultOvf : BitVec 2 := 0#2

/-- The code a host presents for an omitted rounding policy: `Truncate` (30_encoding.md R61, R62). -/
def Config.defaultRnd : BitVec 3 := 0#3

end Sys2Proof
end

