-- ==== Sys2Proof/Syntax.lean ====
section
/-! DEFINITION. The commands of the block and their operands (spec/30_encoding.md R55 to R63, R72, R73). -/
namespace Sys2Proof

/-- The overflow policies, a closed enumeration (10_state.md R24). -/
inductive OverflowPolicy where
  | wrap
  | saturate
deriving DecidableEq, Repr

/-- The rounding policies, a closed enumeration (10_state.md R24). `truncate` and `floor` are two values
with one arithmetic (43_rounding_engine.md R132). -/
inductive RoundingPolicy where
  | truncate
  | nearestAwayFromZero
  | floor
  | ceil
  | towardZero
deriving DecidableEq, Repr

/-- A format triple `(S, W, F)` as the `BND.*` commands carry it (30_encoding.md R59): `S` is true for
signed; `W` and `F` are the integers `s2(W)`, `s2(F)`, so a width that is not positive can be presented. -/
structure Triple where
  S : Bool
  W : Int
  F : Int
deriving DecidableEq, Repr

/-- The configuration bundle (30_encoding.md R59): a triple and the two policy codes, reserved codes
included. -/
structure Bundle extends Triple where
  ovf : BitVec 2
  rnd : BitVec 3
deriving DecidableEq, Repr

/-- The sample operand of a decoded command (30_encoding.md R63). A sequence is a flat list (log 12); a
writable buffer is named, and its elements stand in memory. -/
inductive SampleOperand where
  | scalar (x : Sample)
  | seqRO (xs : List Sample)
  | seqRW (b : BufferId)
deriving DecidableEq, Repr

/-- The commands: one constructor per row of spec/opcode_table.json (30_encoding.md R57, R58), with the
operands the row names. -/
inductive Instr where
  /-- `CFG` (41_format_validator.md R101). -/
  | cfg (b : Bundle)
  /-- `TOSC` (44_quantizer_ops.md R146). -/
  | tosc (x : SampleOperand)
  /-- `TOUC` (R147). -/
  | touc (x : SampleOperand)
  /-- `TOBS` (R148). -/
  | tobs (x : SampleOperand)
  /-- `Q` (R149). -/
  | q (x : SampleOperand)
  /-- `QS` (R150). -/
  | qs (x : SampleOperand)
  /-- `DESC`, with its verbose flag (R153). -/
  | desc (v : Bool)
  /-- `Q1` (R151). -/
  | q1 (x : SampleOperand) (b : Bundle)
  /-- `QS1` (R152). -/
  | qs1 (x : SampleOperand) (b : Bundle)
  /-- `BND.MININT` (40_bounds_calc.md R91). -/
  | bndMinInt (t : Triple)
  /-- `BND.MAXINT` (R92). -/
  | bndMaxInt (t : Triple)
  /-- `BND.RANGEINT` (R93). -/
  | bndRangeInt (t : Triple)
  /-- `BND.MINVAL` (R94). -/
  | bndMinVal (t : Triple)
  /-- `BND.MAXVAL` (R95). -/
  | bndMaxVal (t : Triple)
  /-- `BND.PREC` (R96). -/
  | bndPrec (t : Triple)
deriving DecidableEq, Repr

/-! ## The command as the host presents it on the ports -/

/-- The payload wires of the sample port: one for each kind of operand, of which the kind tag selects
one (30_encoding.md R63; log 19). -/
structure Payload where
  sample : Sample
  seq : List Sample
  buffer : BufferId
deriving DecidableEq, Repr

/-- The sample port: the kind tag, 2 bits with the code 3 reserved, and the payload (30_encoding.md R63). -/
structure SamplePort where
  kind : BitVec 2
  payload : Payload
deriving DecidableEq, Repr

/-- One command as presented: the byte, and the two operand ports, each possibly left empty
(30_encoding.md R55; a required operand may be missing, 93_implementation_defined.md U7). -/
structure Command where
  cmd : Byte
  bundle : Option Bundle
  sample : Option SamplePort
deriving DecidableEq, Repr

/-- The configuration port with `n = CFG_INT_BITS` bits for `W` and for `F` (30_encoding.md R59). -/
structure CfgPort (n : Nat) where
  S : BitVec 1
  W : BitVec n
  F : BitVec n
  ovf : BitVec 2
  rnd : BitVec 3
deriving DecidableEq, Repr

/-- A command on ports of `n = CFG_INT_BITS` bits. -/
structure Wires (n : Nat) where
  cmd : Byte
  cfg : Option (CfgPort n)
  sample : Option SamplePort
deriving DecidableEq, Repr

/-! ## The name level -/

/-- A configuration as the document's interface gives it, policies by name, either of them omitted
(30_encoding.md R62, R72). -/
structure NamedConfig where
  S : Bool
  W : Int
  F : Int
  ovfName : Option String
  rndName : Option String
deriving DecidableEq, Repr

/-- The six bounds in the document's order (30_encoding.md R58). -/
inductive BoundName where
  | minInt
  | maxInt
  | rangeInt
  | minValue
  | maxValue
  | precision
deriving DecidableEq, Repr

/-- The document's interface (30_encoding.md R72) and its pseudo-operations (R73). -/
inductive NamedCommand where
  | construct (c : NamedConfig)
  | toSignedCode (x : SampleOperand)
  | toUnsignedCode (x : SampleOperand)
  | toBitString (x : SampleOperand)
  | quantize (x : SampleOperand)
  /-- The alias `q` of `quantize`. -/
  | aliasQ (x : SampleOperand)
  | quantizeSelf (x : SampleOperand)
  /-- The alias `qs` of `quantizeSelf`. -/
  | aliasQs (x : SampleOperand)
  /-- `describe(verbose?)`, the flag possibly omitted. -/
  | describe (verbose : Option Bool)
  /-- The free function `quantize`. -/
  | quantizeOnce (x : SampleOperand) (c : NamedConfig)
  /-- The free function `quantizeSelf`. -/
  | quantizeSelfOnce (x : SampleOperand) (c : NamedConfig)
  /-- A FormatMath function. -/
  | bound (which : BoundName) (t : Triple)
deriving DecidableEq, Repr

end Sys2Proof
end

