-- ==== Sys2Proof/WellFormed.lean ====
section
/-! DEFINITION. Which commands a configuration port can carry, and which stay inside the document's assumption
on widths (spec/30_encoding.md R59; spec/00_scope.md R8). -/
namespace Sys2Proof

/-- The integer `v` is the value `s2` of some vector of `n` bits (30_encoding.md R59). -/
def fitsField (n : Nat) (v : Int) : Bool :=
  decide (-(2 ^ n : Int) ≤ 2 * v) && decide (2 * v < (2 ^ n : Int))

/-- Both integer fields of the triple fit the port. -/
def Triple.fits (n : Nat) (t : Triple) : Bool := fitsField n t.W && fitsField n t.F

/-- A command is well formed for a port of `n = CFG_INT_BITS` bits when its configuration fields fit the
port. Sample operands and policy codes are well formed by their types. -/
def Instr.wellFormed (n : Nat) : Instr → Bool
  | .cfg b => b.toTriple.fits n
  | .tosc _ => true
  | .touc _ => true
  | .tobs _ => true
  | .q _ => true
  | .qs _ => true
  | .desc _ => true
  | .q1 _ b => b.toTriple.fits n
  | .qs1 _ b => b.toTriple.fits n
  | .bndMinInt t => t.fits n
  | .bndMaxInt t => t.fits n
  | .bndRangeInt t => t.fits n
  | .bndMinVal t => t.fits n
  | .bndMaxVal t => t.fits n
  | .bndPrec t => t.fits n

/-- The width is one the implementation promises (00_scope.md R8, `WMAX`). A premise a cautious claim may
add; the validator does not check it (41_format_validator.md R103). -/
def Config.promisesWidth (c : Config) (w : Int) : Bool :=
  match c.wMax with
  | none => true
  | some m => decide (w ≤ (m : Int))

end Sys2Proof
end

