-- ==== Sys2Proof/Decode.lean ====
section
/-! DEFINITION. Decoding a presented command, total, rejecting by name, and the encoder (spec/30_encoding.md R56 to
R63, R69, R74). -/
namespace Sys2Proof

/-- Why a command is illegal. Every one of them is the one status `IllegalCommand` (60_exceptions.md R176). -/
inductive Illegal where
  /-- `op` is `0x0` or `0xB` to `0xF` (30_encoding.md R69). -/
  | reservedOp
  /-- `sub` is not zero where `op` defines none of its bits (R69). -/
  | nonzeroSub
  /-- The selector of `BND.*` is 6 or 7 (R69). -/
  | reservedSel
  /-- The operand's kind tag is 3 (R69). -/
  | reservedKind
  /-- No configuration bundle is presented to a command that takes one (93_implementation_defined.md U7). -/
  | missingBundle
  /-- No sample operand is presented to a command that takes one (U7). -/
  | missingSample
deriving DecidableEq, Repr

/-! ## Decoding -/

/-- `op = cmd[7:4]` (30_encoding.md R56). -/
def opField (c : Byte) : BitVec 4 := c.extractLsb' 4 4

/-- `sub = cmd[3:0]` (R56). -/
def subField (c : Byte) : BitVec 4 := c.extractLsb' 0 4

/-- The operand a sample port carries: the kind tag selects the payload wire; the code 3 is reserved (R63). -/
def SamplePort.operand (p : SamplePort) : Option SampleOperand :=
  match p.kind.toNat with
  | 0 => some (.scalar p.payload.sample)
  | 1 => some (.seqRO p.payload.seq)
  | 2 => some (.seqRW p.payload.buffer)
  | _ => none

/-- The sample operand of a command that takes one. -/
def Command.sampleOperand (c : Command) : Except Illegal SampleOperand :=
  match c.sample with
  | none => .error .missingSample
  | some p =>
    match p.operand with
    | none => .error .reservedKind
    | some x => .ok x

/-- The bundle of a command that takes one. -/
def Command.bundleOperand (c : Command) : Except Illegal Bundle :=
  match c.bundle with
  | none => .error .missingBundle
  | some b => .ok b

/-- A command with a bundle and no sample operand. -/
def decodeBundle (mk : Bundle → Instr) (c : Command) : Except Illegal Instr :=
  match c.bundleOperand with
  | .error e => .error e
  | .ok b => .ok (mk b)

/-- A command with a sample operand and no bundle. -/
def decodeSample (mk : SampleOperand → Instr) (c : Command) : Except Illegal Instr :=
  match c.sampleOperand with
  | .error e => .error e
  | .ok x => .ok (mk x)

/-- A command with both. -/
def decodeBoth (mk : SampleOperand → Bundle → Instr) (c : Command) : Except Illegal Instr :=
  match c.bundleOperand, c.sampleOperand with
  | .error e, _ => .error e
  | .ok _, .error e => .error e
  | .ok b, .ok x => .ok (mk x b)

/-- `sub` must be `0000` (R58). -/
def decodePlain (k : Except Illegal Instr) (c : Command) : Except Illegal Instr :=
  if subField c.cmd = 0#4 then k else .error .nonzeroSub

/-- `DESC`: `sub[3:1]` must be `000` and `sub[0]` is the verbose flag (R58). -/
def decodeDesc (c : Command) : Except Illegal Instr :=
  match (subField c.cmd).toNat with
  | 0 => .ok (.desc false)
  | 1 => .ok (.desc true)
  | _ => .error .nonzeroSub

/-- `BND.*`: `sub[3]` must be 0 and `sub[2:0]` selects the bound; only `S`, `W`, `F` of the bundle are
used (R58, R59). -/
def decodeBnd (c : Command) : Except Illegal Instr :=
  match (subField c.cmd).toNat with
  | 0 => decodeBundle (fun b => .bndMinInt b.toTriple) c
  | 1 => decodeBundle (fun b => .bndMaxInt b.toTriple) c
  | 2 => decodeBundle (fun b => .bndRangeInt b.toTriple) c
  | 3 => decodeBundle (fun b => .bndMinVal b.toTriple) c
  | 4 => decodeBundle (fun b => .bndMaxVal b.toTriple) c
  | 5 => decodeBundle (fun b => .bndPrec b.toTriple) c
  | 6 => .error .reservedSel
  | 7 => .error .reservedSel
  | _ => .error .nonzeroSub

/-- Decoding (R57, R69, R74): `op`, then `sub`, then the operands' presence and kind, and nothing else. -/
def decode (c : Command) : Except Illegal Instr :=
  match (opField c.cmd).toNat with
  | 1 => decodePlain (decodeBundle .cfg c) c
  | 2 => decodePlain (decodeSample .tosc c) c
  | 3 => decodePlain (decodeSample .touc c) c
  | 4 => decodePlain (decodeSample .tobs c) c
  | 5 => decodePlain (decodeSample .q c) c
  | 6 => decodePlain (decodeSample .qs c) c
  | 7 => decodeDesc c
  | 8 => decodePlain (decodeBoth .q1 c) c
  | 9 => decodePlain (decodeBoth .qs1 c) c
  | 10 => decodeBnd c
  | _ => .error .reservedOp

/-- The integer a two's-complement field carries, `s2` (00_scope.md R11). -/
def s2 {n : Nat} (v : BitVec n) : Int := v.toInt

/-- What the configuration port presents (R59): `S` is 1 for signed, `W` and `F` read as `s2`. -/
def CfgPort.read {n : Nat} (p : CfgPort n) : Bundle :=
  { S := p.S == 1#1, W := s2 p.W, F := s2 p.F, ovf := p.ovf, rnd := p.rnd }

/-- What the ports present. -/
def Wires.read {n : Nat} (w : Wires n) : Command :=
  { cmd := w.cmd, bundle := w.cfg.map CfgPort.read, sample := w.sample }

/-- Decoding from ports of `n = CFG_INT_BITS` bits. -/
def decodeWires {n : Nat} (w : Wires n) : Except Illegal Instr := decode w.read

/-! ## Encoding -/

/-- The byte `{op, sub}` of a command (R56 to R58). -/
def Instr.byte : Instr → Byte
  | .cfg _ => 0x10#8
  | .tosc _ => 0x20#8
  | .touc _ => 0x30#8
  | .tobs _ => 0x40#8
  | .q _ => 0x50#8
  | .qs _ => 0x60#8
  | .desc v => if v then 0x71#8 else 0x70#8
  | .q1 _ _ => 0x80#8
  | .qs1 _ _ => 0x90#8
  | .bndMinInt _ => 0xA0#8
  | .bndMaxInt _ => 0xA1#8
  | .bndRangeInt _ => 0xA2#8
  | .bndMinVal _ => 0xA3#8
  | .bndMaxVal _ => 0xA4#8
  | .bndPrec _ => 0xA5#8

/-- All payload wires at zero. -/
def Payload.zero : Payload := { sample := 0, seq := [], buffer := 0 }

/-- A sample operand on its port: the code of its kind, the other wires at zero (R63). -/
def SampleOperand.port : SampleOperand → SamplePort
  | .scalar x => { kind := 0#2, payload := { Payload.zero with sample := x } }
  | .seqRO xs => { kind := 1#2, payload := { Payload.zero with seq := xs } }
  | .seqRW b => { kind := 2#2, payload := { Payload.zero with buffer := b } }

/-- A `BND.*` triple on the bundle port, the ignored policy fields at zero (R59). -/
def Triple.bundle (t : Triple) : Bundle := { toTriple := t, ovf := 0#2, rnd := 0#3 }

/-- The bundle a command carries. -/
def Instr.bundle? : Instr → Option Bundle
  | .cfg b => some b
  | .tosc _ => none
  | .touc _ => none
  | .tobs _ => none
  | .q _ => none
  | .qs _ => none
  | .desc _ => none
  | .q1 _ b => some b
  | .qs1 _ b => some b
  | .bndMinInt t => some t.bundle
  | .bndMaxInt t => some t.bundle
  | .bndRangeInt t => some t.bundle
  | .bndMinVal t => some t.bundle
  | .bndMaxVal t => some t.bundle
  | .bndPrec t => some t.bundle

/-- The sample operand a command carries. -/
def Instr.sample? : Instr → Option SampleOperand
  | .cfg _ => none
  | .tosc x => some x
  | .touc x => some x
  | .tobs x => some x
  | .q x => some x
  | .qs x => some x
  | .desc _ => none
  | .q1 x _ => some x
  | .qs1 x _ => some x
  | .bndMinInt _ => none
  | .bndMaxInt _ => none
  | .bndRangeInt _ => none
  | .bndMinVal _ => none
  | .bndMaxVal _ => none
  | .bndPrec _ => none

/-- The command that presents an instruction. -/
def encode (i : Instr) : Command :=
  { cmd := i.byte, bundle := i.bundle?, sample := i.sample?.map SampleOperand.port }

/-- A bundle on a configuration port of `n` bits (R59). -/
def Bundle.drive (n : Nat) (b : Bundle) : CfgPort n :=
  { S := if b.S then 1#1 else 0#1, W := BitVec.ofInt n b.W, F := BitVec.ofInt n b.F, ovf := b.ovf, rnd := b.rnd }

/-- Encoding onto ports of `n = CFG_INT_BITS` bits. -/
def encodeWires (n : Nat) (i : Instr) : Wires n :=
  { cmd := i.byte, cfg := i.bundle?.map (Bundle.drive n), sample := i.sample?.map SampleOperand.port }

/-! ## The opcode table's view -/

/-- The command the host presents for a table word: its low byte, and zeros on both operand ports, which
have no bits in the table (30_encoding.md R59). -/
def tableCommand (nbits w : Nat) : Command :=
  { cmd := BitVec.ofNat 8 (w % 2 ^ nbits)
    bundle := some (CfgPort.read { S := 0#1, W := 0#32, F := 0#32, ovf := 0#2, rnd := 0#3 })
    sample := some { kind := 0#2, payload := Payload.zero } }

/-- The instruction the decoder reads from a table word. -/
def decodeTableWord (nbits w : Nat) : Option Instr :=
  match decode (tableCommand nbits w) with
  | .ok i => some i
  | .error _ => none

end Sys2Proof
end

