-- ==== Sys2Proof/Machine/Names.lean ====
section
/-! DEFINITION. The policy name table and the name level of the interface (spec/10_state.md R27; spec/30_encoding.md
R62, R72, R73). -/
namespace Sys2Proof.Machine

/-- Which field of the bundle a row of the table belongs to. -/
inductive PolicyField where
  | ovf
  | rnd
deriving DecidableEq, Repr

/-- The policy name table, a ROM of seven rows: name, field, code (30_encoding.md R62). -/
def policyNameTable : List (String × PolicyField × Nat) :=
  [("Wrap", .ovf, 0), ("Saturate", .ovf, 1), ("Truncate", .rnd, 0), ("NearestAwayFromZero", .rnd, 1),
   ("Floor", .rnd, 2), ("Ceil", .rnd, 3), ("TowardZero", .rnd, 4)]

/-- A name's letters with ASCII case removed (R62). -/
def foldCase (name : String) : List Char := name.toList.map Char.toLower

/-- The code of a name in its position: ASCII case-insensitive equality with a whole name of that
position's rows (R62). -/
def lookupPolicy (field : PolicyField) (name : String) : Option Nat :=
  (policyNameTable.find? fun row => row.2.1 == field && foldCase row.1 == foldCase name).map fun row => row.2.2

/-- The overflow code of an optional name: the default where it is omitted, a reserved code where it is
unrecognized (R60, R62; log 14). -/
def ovfCode : Option String → BitVec 2
  | none => Config.defaultOvf
  | some name =>
    match lookupPolicy .ovf name with
    | some c => BitVec.ofNat 2 c
    | none => 3#2

/-- The rounding code of an optional name (R61, R62; log 14). -/
def rndCode : Option String → BitVec 3
  | none => Config.defaultRnd
  | some name =>
    match lookupPolicy .rnd name with
    | some c => BitVec.ofNat 3 c
    | none => 7#3

/-- A named configuration as a bundle (R62, R73). -/
def bundleOfNames (c : NamedConfig) : Bundle :=
  { S := c.S, W := c.W, F := c.F, ovf := ovfCode c.ovfName, rnd := rndCode c.rndName }

/-- The command a FormatMath function stands for (R72). -/
def boundCommand : BoundName → Triple → Instr
  | .minInt, t => .bndMinInt t
  | .maxInt, t => .bndMaxInt t
  | .rangeInt, t => .bndRangeInt t
  | .minValue, t => .bndMinVal t
  | .maxValue, t => .bndMaxVal t
  | .precision, t => .bndPrec t

/-- The command of each form of the document's interface (R72), its pseudo-operations expanded (R73). -/
def expandNamed : NamedCommand → Instr
  | .construct c => .cfg (bundleOfNames c)
  | .toSignedCode x => .tosc x
  | .toUnsignedCode x => .touc x
  | .toBitString x => .tobs x
  | .quantize x => .q x
  | .aliasQ x => .q x
  | .quantizeSelf x => .qs x
  | .aliasQs x => .qs x
  | .describe v => .desc (v.getD false)
  | .quantizeOnce x c => .q1 x (bundleOfNames c)
  | .quantizeSelfOnce x c => .qs1 x (bundleOfNames c)
  | .bound which t => boundCommand which t

/-- A named command as presented on the ports. -/
def presentNamed (n : NamedCommand) : Command := encode (expandNamed n)

end Sys2Proof.Machine
end

