-- ==== Sys2Proof/Machine/State.lean ====
section
/-! DEFINITION. The state of one block instance and of what a command can touch, and the machine right after reset
(spec/10_state.md; spec/70_reset_and_hazards.md R190). -/
namespace Sys2Proof.Machine

/-! ## The engine context -/

/-- An engine: a validated format and its policies (10_state.md R34). `W` is at least 1 in every engine
that `CFG` writes. -/
structure Engine where
  S : Bool
  W : Int
  F : Int
  OVF : OverflowPolicy
  RND : RoundingPolicy
deriving DecidableEq, Repr

/-- The six bounds of a format, as cached in the context (10_state.md R25). -/
structure Bounds where
  MININT : Int
  MAXINT : Int
  RANGEINT : Int
  MINVAL : ℚ
  MAXVAL : ℚ
  PREC : ℚ
deriving DecidableEq, Repr

/-- The eleven fields of the context that exist while `ctx.VALID` is 1 (10_state.md R21 to R25). -/
structure Context extends Engine, Bounds
deriving DecidableEq, Repr

/-! ## Responses -/

/-- The five errors (60_exceptions.md R171). -/
inductive Error where
  /-- A width that is not positive (R172). -/
  | invalidFormat
  /-- An unrecognized overflow or rounding policy (R173). -/
  | invalidPolicy
  /-- An in-place command on an operand that is not a mutable sequence (R174). -/
  | typeMismatch
  /-- A command that uses the context while `ctx.VALID` is 0 (R175). -/
  | noEngine
  /-- A reserved or malformed command (R176). -/
  | illegalCommand
deriving DecidableEq, Repr

/-- A result in the shape of its operand (30_encoding.md R65). -/
inductive Shaped (α : Type) where
  | scalar (a : α)
  | seq (as : List α)
deriving DecidableEq, Repr

/-- The result of a command whose status is `OK` (30_encoding.md R65). -/
inductive Result where
  /-- `TOSC`, `TOUC`. -/
  | codes (r : Shaped Int)
  /-- `TOBS`. -/
  | bitStrings (r : Shaped BitText)
  /-- `Q`, `Q1`. -/
  | values (r : Shaped ℚ)
  /-- `BND.MININT`, `BND.MAXINT`, `BND.RANGEINT`. -/
  | integer (n : Int)
  /-- `BND.MINVAL`, `BND.MAXVAL`, `BND.PREC`. -/
  | rational (v : ℚ)
  /-- `DESC`: five fields, and the six bounds when verbose (44_quantizer_ops.md R153). -/
  | record (e : Engine) (bounds : Option Bounds)
deriving DecidableEq, Repr

/-- The response of one command (30_encoding.md R64): `OK` with the command's result, if it has one, or
an error and nothing else. -/
inductive Response where
  | ok (r : Option Result)
  | err (e : Error)
deriving DecidableEq, Repr

/-! ## Memory and the host -/

/-- The host's sample buffers (20_memory.md R40): pairs of a buffer's name and its elements, names
strictly rising, no empty buffer listed. A buffer that is not listed has no elements (log 5). -/
abbrev Memory := List (BufferId × List Sample)

/-- What the host does next (log 2). -/
inductive HostEvent where
  /-- It presents a command on the ports (30_encoding.md R55). -/
  | command (c : Command)
  /-- It issues a command of the document's interface, policies by name (30_encoding.md R62, R72). -/
  | named (n : NamedCommand)
  /-- It resets the block (70_reset_and_hazards.md R190). -/
  | reset
  /-- It writes its own buffer, between commands (10_state.md R31; log 17). -/
  | hostWrite (b : BufferId) (xs : List Sample)
deriving DecidableEq, Repr

/-- The whole state. -/
structure State where
  /-- The engine context: `none` is `ctx.VALID = 0` (10_state.md R22, R34; log 1). -/
  ctx : Option Context
  /-- The host's sample buffers (R31). -/
  mem : Memory
  /-- What the host does next, first to last; not state of the block (R32; log 2). -/
  input : List HostEvent
  /-- The response port: what the last command answered (30_encoding.md R64; log 4). No meaning reads it. -/
  response : Option Response
deriving DecidableEq, Repr

/-! ## Why the model can stop -/

/-- Why the machine would stop with a fault. -/
inductive Fault where
  /-- Raised by the in-place loop of `QS` and `QS1` if it accessed an index outside the buffer. The spec
  says such an access cannot be formed (20_memory.md R41), and no command reaches it. Safe. -/
  | accessOutsideBuffer
deriving DecidableEq, Repr

/-- Why the model would have no meaning to give. -/
inductive Refusal where
  /-- Raised by an arm of `exec` without a meaning; there is none left. Safe. -/
  | notModelled (mnemonic : String)
deriving DecidableEq, Repr

/-- Right after reset: no engine (10_state.md R33; 70_reset_and_hazards.md R190), no buffer listed (log 5),
nothing presented (log 2) and nothing answered (log 4). -/
def State.reset : State := { ctx := none, mem := [], input := [], response := none }

end Sys2Proof.Machine
end

