-- ==== Sys2Proof/Machine/Flags.lean ====
section
/-! DEFINITION. The status codes. The block has no flags and no condition codes (spec/10_state.md R28); its only
status is the code of a response (spec/60_exceptions.md R171). -/
namespace Sys2Proof.Machine

/-- The status code of an error (60_exceptions.md R171). -/
def Error.code : Error → BitVec 3
  | .invalidFormat => 1#3
  | .invalidPolicy => 2#3
  | .typeMismatch => 3#3
  | .noEngine => 4#3
  | .illegalCommand => 5#3

/-- `status[2:0]` of a response (30_encoding.md R64). -/
def Response.status : Response → BitVec 3
  | .ok _ => 0#3
  | .err e => e.code

/-- The result of a response, if it has one (R64). -/
def Response.result : Response → Option Result
  | .ok r => r
  | .err _ => none

/-- `ctx.VALID` (10_state.md R22). -/
def State.valid (s : State) : Bool := s.ctx.isSome

end Sys2Proof.Machine
end

