-- ==== Sys2Proof/Machine/Ops.lean ====
section
/-! DEFINITION. The named operations over memory, the context and the response, and the one operation that raises an
error (spec/20_memory.md R40 to R45; spec/00_scope.md R12 to R14; spec/60_exceptions.md R180). -/
namespace Sys2Proof.Machine

/-! ## Memory -/

/-- The canonical form: names strictly rising, no entry equal to what an unlisted buffer reads as (log 5). -/
abbrev Memory.wf (m : Memory) : Prop :=
  m.Pairwise (fun p q => p.1 < q.1) ∧ ∀ p ∈ m, p.2 ≠ []

/-- The elements of a buffer; of one that is not listed, none (log 5). -/
def Memory.buffer : Memory → BufferId → List Sample
  | [], _ => []
  | (c, xs) :: m, b => if c = b then xs else Memory.buffer m b

/-- Memory with the elements of one buffer replaced, in canonical form. -/
def Memory.store : Memory → BufferId → List Sample → Memory
  | [], b, xs => if xs = [] then [] else [(b, xs)]
  | (c, ys) :: m, b, xs =>
    if c < b then (c, ys) :: Memory.store m b xs
    else if c = b then (if xs = [] then m else (b, xs) :: m)
    else (if xs = [] then (c, ys) :: m else (b, xs) :: (c, ys) :: m)

/-- `MemRead(i, 1)` on buffer `b` (00_scope.md R13); nothing outside `0` to `n-1` (20_memory.md R41). -/
def memRead (m : Memory) (b : BufferId) (i : Nat) : Option Sample := (m.buffer b)[i]?

/-- `MemWrite(i, 1, v)` on buffer `b` (R13); nothing outside `0` to `n-1` (20_memory.md R41). -/
def memWrite (m : Memory) (b : BufferId) (i : Nat) (v : Sample) : Option Memory :=
  if i < (m.buffer b).length then some (m.store b ((m.buffer b).set i v)) else none

/-- From index `i`, for `k` elements in ascending order, one read and then one write of each element
(20_memory.md R44). -/
def rewriteFrom (f : Sample → Sample) (b : BufferId) : Nat → Nat → Memory → Option Memory
  | _, 0, m => some m
  | i, k + 1, m =>
    match memRead m b i with
    | none => none
    | some v =>
      match memWrite m b i (f v) with
      | none => none
      | some m' => rewriteFrom f b (i + 1) k m'

/-- Every element of a buffer rewritten in place (20_memory.md R44). -/
def rewriteBuffer (f : Sample → Sample) (b : BufferId) (m : Memory) : Option Memory :=
  rewriteFrom f b 0 (m.buffer b).length m

/-! ## Responses and errors -/

/-- The command ends with status `OK` and its result, if it has one (30_encoding.md R64). -/
def complete (r : Option Result) (s : State) : Host.Outcome State Fault Refusal :=
  .next { s with response := some (.ok r) }

/-- Raising an error (00_scope.md R14; 60_exceptions.md R180): the response is the error, nothing else
changes, and the block is ready for the next command. There is no handler, no saved state and no return
(60_exceptions.md R181). -/
def raise (e : Error) (s : State) : Host.Outcome State Fault Refusal :=
  .next { s with response := some (.err e) }

/-! ## The context -/

/-- The whole context written at once (00_scope.md R12; 41_format_validator.md R106). -/
def writeContext (c : Context) (s : State) : State := { s with ctx := some c }

/-- A command that uses the context reads it once, whole, or raises `NoEngine` (44_quantizer_ops.md R140). -/
def withContext (s : State) (k : Context → Host.Outcome State Fault Refusal) : Host.Outcome State Fault Refusal :=
  match s.ctx with
  | none => raise .noEngine s
  | some c => k c

/-- A one-shot command goes on with its transient engine or raises the validator's error (10_state.md R35). -/
def withEngine (v : Except Error Engine) (s : State) (k : Engine → Host.Outcome State Fault Refusal) :
    Host.Outcome State Fault Refusal :=
  match v with
  | .error e => raise e s
  | .ok e => k e

/-! ## The host's side -/

/-- Reset of a block in use (70_reset_and_hazards.md R190, R191): no engine, no response; the host's
buffers stay (log 16). -/
def hostReset (s : State) : State := { s with ctx := none, response := none }

/-- The host writes one of its buffers (log 17). -/
def hostWrite (b : BufferId) (xs : List Sample) (s : State) : State := { s with mem := s.mem.store b xs }

end Sys2Proof.Machine
end

