-- ==== Sys2Proof/Machine/Accept.lean ====
section
/-! DEFINITION. Accepting what the host presents: this block's analogue of a fetch (spec/20_memory.md R48;
spec/30_encoding.md R74; log 2). -/
namespace Sys2Proof.Machine

/-- What one step has to do. -/
inductive Work where
  /-- Nothing is presented (log 3). -/
  | idle
  /-- A command to decode and run. -/
  | run (c : Command)
  /-- A reset (70_reset_and_hazards.md R190). -/
  | reset
  /-- A write of a buffer by the host (log 17). -/
  | write (b : BufferId) (xs : List Sample)
deriving DecidableEq, Repr

/-- What the head of the input asks for; a named command is presented through the name table. -/
def acceptWork (s : State) : Work :=
  match s.input with
  | [] => .idle
  | .command c :: _ => .run c
  | .named n :: _ => .run (presentNamed n)
  | .reset :: _ => .reset
  | .hostWrite b xs :: _ => .write b xs

/-- The state in which that is done: the head of the input is consumed. -/
def consumeInput (s : State) : State := { s with input := s.input.tail }

/-- The input with a command for the very next step. -/
def presentNext (c : Command) (s : State) : State := { s with input := .command c :: s.input }

end Sys2Proof.Machine
end

