-- ==== Sys2Proof/Machine/Operands.lean ====
section
/-! DEFINITION. The primitive functions on numbers, the sample operand and elementwise application (spec/00_scope.md
R10; spec/30_encoding.md R63; spec/44_quantizer_ops.md R141). -/
namespace Sys2Proof.Machine

/-! ## Primitives (00_scope.md R10) -/

/-- `pow2(n)`: the rational `2^n`, also for negative `n`. -/
def pow2 : Int → ℚ
  | .ofNat n => ((2 ^ n : Nat) : ℚ)
  | .negSucc n => 1 / ((2 ^ (n + 1) : Nat) : ℚ)

/-- `floor(v)`. -/
def floorQ (v : ℚ) : Int := ⌊v⌋

/-- `ceil(v)`. -/
def ceilQ (v : ℚ) : Int := ⌈v⌉

/-- `rha(v)`: round half away from zero. -/
def rha (v : ℚ) : Int := if 0 ≤ v then floorQ (v + 1 / 2) else -floorQ (-v + 1 / 2)

/-- `rtz(v)`: round toward zero. -/
def rtz (v : ℚ) : Int := if 0 ≤ v then floorQ v else -floorQ (-v)

/-- `fmod(v, m)`: the floored modulo. -/
def fmod (v : ℚ) (m : Int) : ℚ := v - m * floorQ (v / m)

/-- `clamp(v, lo, hi)`. -/
def clamp (v : ℚ) (lo hi : Int) : ℚ := if v < lo then lo else if hi < v then hi else v

/-! ## The sample operand -/

/-- The samples of an operand, in its shape; those of a writable buffer are read from memory
(44_quantizer_ops.md R164). -/
def loadOperand (m : Memory) : SampleOperand → Shaped Sample
  | .scalar x => .scalar x
  | .seqRO xs => .seq xs
  | .seqRW b => .seq (m.buffer b)

/-- Elementwise application (44_quantizer_ops.md R141). -/
def elementwise {α β : Type} (f : α → β) : Shaped α → Shaped β
  | .scalar a => .scalar (f a)
  | .seq as => .seq (as.map f)

end Sys2Proof.Machine
end

