-- ==== Sys2Proof/Machine/Bounds.lean ====
section
/-! DEFINITION. The unit two_complement_bounds_calc: the bounds of a format, and the six commands `BND.*`
(spec/40_bounds_calc.md). The functions are used for `W >= 1` only (R80). -/
namespace Sys2Proof.Machine

/-! ## The functions -/

/-- `minInt(S, W)` (R81). -/
def minInt (S : Bool) (W : Int) : Int := if S then -(2 ^ (W - 1).toNat) else 0

/-- `maxInt(S, W)` (R82). -/
def maxInt (S : Bool) (W : Int) : Int := if S then 2 ^ (W - 1).toNat - 1 else 2 ^ W.toNat - 1

/-- `rangeInt(S, W)` (R83). -/
def rangeInt (S : Bool) (W : Int) : Int := maxInt S W - minInt S W

/-- The modulus `M(W)`, obtained as `2^W` (R84; 90_conflicts.md C1). -/
def modulus (W : Int) : Int := 2 ^ W.toNat

/-- `precision(F)` (R85). -/
def precision (F : Int) : ℚ := pow2 (-F)

/-- `minValue(S, W, F)` (R86). -/
def minValue (S : Bool) (W F : Int) : ℚ := minInt S W / pow2 F

/-- `maxValue(S, W, F)` (R87). -/
def maxValue (S : Bool) (W F : Int) : ℚ := maxInt S W / pow2 F

/-- The six bounds of a format together (10_state.md R25). -/
def boundsOf (S : Bool) (W F : Int) : Bounds :=
  { MININT := minInt S W, MAXINT := maxInt S W, RANGEINT := rangeInt S W
    MINVAL := minValue S W F, MAXVAL := maxValue S W F, PREC := precision F }

/-! ## The commands -/

/-- The common part of `BND.*` (R90): check the width, then answer the bound. -/
def answerBound (t : Triple) (r : Result) (s : State) : Host.Outcome State Fault Refusal :=
  if t.W ≤ 0 then raise .invalidFormat s else complete (some r) s

/-- `BND.MININT S, W, F` (R91). -/
def execBndMinInt (t : Triple) (s : State) : Host.Outcome State Fault Refusal :=
  answerBound t (.integer (minInt t.S t.W)) s

/-- `BND.MAXINT S, W, F` (R92). -/
def execBndMaxInt (t : Triple) (s : State) : Host.Outcome State Fault Refusal :=
  answerBound t (.integer (maxInt t.S t.W)) s

/-- `BND.RANGEINT S, W, F` (R93). -/
def execBndRangeInt (t : Triple) (s : State) : Host.Outcome State Fault Refusal :=
  answerBound t (.integer (rangeInt t.S t.W)) s

/-- `BND.MINVAL S, W, F` (R94). -/
def execBndMinVal (t : Triple) (s : State) : Host.Outcome State Fault Refusal :=
  answerBound t (.rational (minValue t.S t.W t.F)) s

/-- `BND.MAXVAL S, W, F` (R95). -/
def execBndMaxVal (t : Triple) (s : State) : Host.Outcome State Fault Refusal :=
  answerBound t (.rational (maxValue t.S t.W t.F)) s

/-- `BND.PREC S, W, F` (R96). -/
def execBndPrec (t : Triple) (s : State) : Host.Outcome State Fault Refusal :=
  answerBound t (.rational (precision t.F)) s

end Sys2Proof.Machine
end

