-- ==== Sys2Proof/Machine/Overflow.lean ====
section
/-! DEFINITION. The unit overflow_saturation_unit: scale, then wrap or clamp (spec/42_overflow_saturation_unit.md).
The commands do not read the cached bounds here (R110; log 13). -/
namespace Sys2Proof.Machine

/-- Step 1, scale: `raw = x * pow2(F)` (R111). -/
def scale (F : Int) (x : Sample) : ℚ := x * pow2 F

/-- The residue under `Wrap` (R112). -/
def residue (W : Int) (raw : ℚ) : ℚ := fmod raw (modulus W)

/-- Step 2 under `Wrap`: the residue, re-centred by the modulus where a signed format's residue is above
`maxInt` (R113). -/
def wrapStep (S : Bool) (W : Int) (raw : ℚ) : ℚ :=
  if S = true ∧ (maxInt S W : ℚ) < residue W raw then residue W raw - modulus W else residue W raw

/-- Step 2 under `Saturate` (R114). -/
def saturateStep (S : Bool) (W : Int) (raw : ℚ) : ℚ := clamp raw (minInt S W) (maxInt S W)

/-- The unit as one function, `ovf(e, x)` (R115). -/
def ovf (e : Engine) (x : Sample) : ℚ :=
  match e.OVF with
  | .wrap => wrapStep e.S e.W (scale e.F x)
  | .saturate => saturateStep e.S e.W (scale e.F x)

end Sys2Proof.Machine
end

