-- ==== Sys2Proof/Machine/Rounding.lean ====
section
/-! DEFINITION. The unit rounding_engine: the five roundings (spec/43_rounding_engine.md). -/
namespace Sys2Proof.Machine

/-- `rnd(p, v)` (R126 to R131). `Truncate` and `Floor` have one arithmetic (R132). -/
def rnd (p : RoundingPolicy) (v : ℚ) : Int :=
  match p with
  | .truncate => floorQ v
  | .nearestAwayFromZero => rha v
  | .floor => floorQ v
  | .ceil => ceilQ v
  | .towardZero => rtz v

end Sys2Proof.Machine
end

