-- ==== Sys2Proof/Machine/Scalar.lean ====
section
/-! DEFINITION. The four scalar functions of the conversions and the readings of a codeword (spec/44_quantizer_ops.md
R142 to R145; spec/30_encoding.md R66 to R68, R75). -/
namespace Sys2Proof.Machine

/-- The signed code `sc(e, x)`: scale, overflow, rounding, and no fourth step (44_quantizer_ops.md R142;
43_rounding_engine.md R135). -/
def sc (e : Engine) (x : Sample) : Int := rnd e.RND (ovf e x)

/-- The unsigned mapping of one signed code (44_quantizer_ops.md R143). -/
def unsignedOf (W c : Int) : Int := if c < 0 then c + modulus W else c

/-- The unsigned code `uc(e, x)` (R143). -/
def uc (e : Engine) (x : Sample) : Int := unsignedOf e.W (sc e x)

/-- Bit `i` of a numeral is one: `floor(u / 2^i) mod 2` (30_encoding.md R68). -/
def bitOf (u : Int) (i : Nat) : Bool := u / 2 ^ i % 2 == 1

/-- The `W`-bit numeral of `u` modulo `2^W`, bit `W-1` first (30_encoding.md R68; log 10). -/
def bitText (W u : Int) : BitText :=
  (List.range W.toNat).reverse.map fun i => if bitOf (u % modulus W) i then '1' else '0'

/-- The bit string `bs(e, x)` (44_quantizer_ops.md R144). -/
def bs (e : Engine) (x : Sample) : BitText := bitText e.W (uc e x)

/-- The quantized value `qv(e, x)` (44_quantizer_ops.md R145). -/
def qv (e : Engine) (x : Sample) : ℚ := sc e x / pow2 e.F

/-! ## Readings of a codeword -/

/-- The value a codeword stands for (30_encoding.md R75). -/
def codeValue (F c : Int) : ℚ := c * precision F

/-- The sum of the weights of a text's ones, every digit weighing `2^i` (R75, unsigned). -/
def unsignedWeight : BitText → Int
  | [] => 0
  | d :: ds => (if d = '1' then 2 ^ ds.length else 0) + unsignedWeight ds

/-- The integer a text of `W` digits stands for in a format (R75): in a signed one the first digit weighs
`-2^(W-1)`. -/
def patternCode (S : Bool) : BitText → Int
  | [] => 0
  | d :: ds => (if d = '1' then (if S then -(2 ^ ds.length) else 2 ^ ds.length) else 0) + unsignedWeight ds

/-- A signed code on a result port of `W + 2` bits of two's complement (30_encoding.md R66). -/
def signedCodePort (W : Nat) (c : Int) : BitVec (W + 2) := BitVec.ofInt (W + 2) c

/-- An unsigned code on a result port of `W + 1` bits (30_encoding.md R67). -/
def unsignedCodePort (W : Nat) (u : Int) : BitVec (W + 1) := BitVec.ofInt (W + 1) u

end Sys2Proof.Machine
end

