-- ==== Sys2Proof/Machine/Validator.lean ====
section
/-! DEFINITION. The unit format_validator: construction of an engine, and the command `CFG`
(spec/41_format_validator.md). -/
namespace Sys2Proof.Machine

/-- The overflow policy a code stands for (30_encoding.md R60). -/
def overflowOfCode (c : BitVec 2) : Option OverflowPolicy :=
  match c.toNat with
  | 0 => some .wrap
  | 1 => some .saturate
  | _ => none

/-- The rounding policy a code stands for (30_encoding.md R61). -/
def roundingOfCode (c : BitVec 3) : Option RoundingPolicy :=
  match c.toNat with
  | 0 => some .truncate
  | 1 => some .nearestAwayFromZero
  | 2 => some .floor
  | 3 => some .ceil
  | 4 => some .towardZero
  | _ => none

/-- `validate(S, W, F, ovf, rnd)` (R109): the width, then the overflow policy, then the rounding policy
(R102, R104, R105; log 9). -/
def validate (b : Bundle) : Except Error Engine :=
  if b.W ≤ 0 then .error .invalidFormat
  else
    match overflowOfCode b.ovf with
    | none => .error .invalidPolicy
    | some o =>
      match roundingOfCode b.rnd with
      | none => .error .invalidPolicy
      | some r => .ok { S := b.S, W := b.W, F := b.F, OVF := o, RND := r }

/-- The context that holds an engine, its bounds cached (R101, R106). -/
def contextOf (e : Engine) : Context := { toEngine := e, toBounds := boundsOf e.S e.W e.F }

/-- `CFG S, W, F [, ovf [, rnd]]` (R101): one write of the whole context, or none (R106, R107). -/
def execCfg (b : Bundle) (s : State) : Host.Outcome State Fault Refusal :=
  withEngine (validate b) s fun e => complete none (writeContext (contextOf e) s)

end Sys2Proof.Machine
end

