-- ==== Sys2Proof/Machine/Conversions.lean ====
section
/-! DEFINITION. The commands on samples and the description (spec/44_quantizer_ops.md R146 to R153). -/
namespace Sys2Proof.Machine

/-! ## Conversions that answer by value -/

/-- `TOSC x` (R146). -/
def execTosc (x : SampleOperand) (s : State) : Host.Outcome State Fault Refusal :=
  withContext s fun c => complete (some (.codes (elementwise (sc c.toEngine) (loadOperand s.mem x)))) s

/-- `TOUC x` (R147). -/
def execTouc (x : SampleOperand) (s : State) : Host.Outcome State Fault Refusal :=
  withContext s fun c => complete (some (.codes (elementwise (uc c.toEngine) (loadOperand s.mem x)))) s

/-- `TOBS x` (R148). -/
def execTobs (x : SampleOperand) (s : State) : Host.Outcome State Fault Refusal :=
  withContext s fun c => complete (some (.bitStrings (elementwise (bs c.toEngine) (loadOperand s.mem x)))) s

/-- What `Q` and `Q1` answer with an engine (R149, R151). -/
def quantizeWith (e : Engine) (x : SampleOperand) (s : State) : Host.Outcome State Fault Refusal :=
  complete (some (.values (elementwise (qv e) (loadOperand s.mem x)))) s

/-- `Q x` (R149). -/
def execQ (x : SampleOperand) (s : State) : Host.Outcome State Fault Refusal :=
  withContext s fun c => quantizeWith c.toEngine x s

/-- `Q1 x, S, W, F [, ovf [, rnd]]` (R151). -/
def execQ1 (x : SampleOperand) (b : Bundle) (s : State) : Host.Outcome State Fault Refusal :=
  withEngine (validate b) s fun e => quantizeWith e x s

/-! ## In place -/

/-- What `QS` and `QS1` do with an engine (R150, R152): `TypeMismatch` before any access unless the
operand is a writable buffer, then one read and one write of each element. -/
def quantizeInPlace (e : Engine) (x : SampleOperand) (s : State) : Host.Outcome State Fault Refusal :=
  match x with
  | .scalar _ => raise .typeMismatch s
  | .seqRO _ => raise .typeMismatch s
  | .seqRW b =>
    match rewriteBuffer (qv e) b s.mem with
    | none => .fault .accessOutsideBuffer
    | some m => complete none { s with mem := m }

/-- `QS buffer` (R150). -/
def execQs (x : SampleOperand) (s : State) : Host.Outcome State Fault Refusal :=
  withContext s fun c => quantizeInPlace c.toEngine x s

/-- `QS1 buffer, S, W, F [, ovf [, rnd]]` (R152). -/
def execQs1 (x : SampleOperand) (b : Bundle) (s : State) : Host.Outcome State Fault Refusal :=
  withEngine (validate b) s fun e => quantizeInPlace e x s

/-! ## Description -/

/-- `DESC [v]` (R153): the fields as the context holds them, the cached bounds among them when verbose. -/
def execDesc (v : Bool) (s : State) : Host.Outcome State Fault Refusal :=
  withContext s fun c => complete (some (.record c.toEngine (if v then some c.toBounds else none))) s

end Sys2Proof.Machine
end

