-- ==== Sys2Proof/Machine/Dispatch.lean ====
section
/-! DEFINITION. One arm per command (spec/30_encoding.md R57). -/
namespace Sys2Proof.Machine

def exec (i : Instr) (s : State) : Host.Outcome State Fault Refusal :=
  match i with
  | .cfg b => Sys2Proof.Machine.execCfg b s
  | .tosc x => Sys2Proof.Machine.execTosc x s
  | .touc x => Sys2Proof.Machine.execTouc x s
  | .tobs x => Sys2Proof.Machine.execTobs x s
  | .q x => Sys2Proof.Machine.execQ x s
  | .qs x => Sys2Proof.Machine.execQs x s
  | .desc v => Sys2Proof.Machine.execDesc v s
  | .q1 x b => Sys2Proof.Machine.execQ1 x b s
  | .qs1 x b => Sys2Proof.Machine.execQs1 x b s
  | .bndMinInt t => Sys2Proof.Machine.execBndMinInt t s
  | .bndMaxInt t => Sys2Proof.Machine.execBndMaxInt t s
  | .bndRangeInt t => Sys2Proof.Machine.execBndRangeInt t s
  | .bndMinVal t => Sys2Proof.Machine.execBndMinVal t s
  | .bndMaxVal t => Sys2Proof.Machine.execBndMaxVal t s
  | .bndPrec t => Sys2Proof.Machine.execBndPrec t s

end Sys2Proof.Machine
end

