-- ==== Sys2Proof/Machine/Step.lean ====
section
/-! DEFINITION. One step: the host's next event, to completion (spec/20_memory.md R48; spec/92_eei_decisions.md D3). -/
namespace Sys2Proof.Machine

/-- Run one presented command: decode it, or raise `IllegalCommand` (60_exceptions.md R176). -/
def runCommand (c : Command) (s : State) : Host.Outcome State Fault Refusal :=
  match decode c with
  | .ok i => exec i s
  | .error _ => raise .illegalCommand s

/-- One step of the machine. With nothing presented it does nothing (log 3). -/
def step (s : State) : Host.Outcome State Fault Refusal :=
  match acceptWork s with
  | .idle => .next s
  | .run c => runCommand c (consumeInput s)
  | .reset => .next (hostReset (consumeInput s))
  | .write b xs => .next (hostWrite b xs (consumeInput s))

/-- The instruction of a table word presented for the very next step (log 2). -/
def State.withFetchWord (s : State) (nbits w : Nat) : State := presentNext (tableCommand nbits w) s

end Sys2Proof.Machine
end

