-- ==== Sys2Proof/Safety.lean ====
section
/-! DEFINITION. What counts as a well-kept state and as a safe step, and the classes of commands, in the terms the
statements use. -/
namespace Sys2Proof

/-- The commands that use the context (spec/44_quantizer_ops.md R140). -/
def Instr.usesContext : Instr → Bool
  | .cfg _ => false
  | .tosc _ => true
  | .touc _ => true
  | .tobs _ => true
  | .q _ => true
  | .qs _ => true
  | .desc _ => true
  | .q1 _ _ => false
  | .qs1 _ _ => false
  | .bndMinInt _ => false
  | .bndMaxInt _ => false
  | .bndRangeInt _ => false
  | .bndMinVal _ => false
  | .bndMaxVal _ => false
  | .bndPrec _ => false

/-- The one-shot commands, which neither read nor write the context (spec/10_state.md R35). -/
def Instr.oneShot : Instr → Bool
  | .cfg _ => false
  | .tosc _ => false
  | .touc _ => false
  | .tobs _ => false
  | .q _ => false
  | .qs _ => false
  | .desc _ => false
  | .q1 _ _ => true
  | .qs1 _ _ => true
  | .bndMinInt _ => true
  | .bndMaxInt _ => true
  | .bndRangeInt _ => true
  | .bndMinVal _ => true
  | .bndMaxVal _ => true
  | .bndPrec _ => true

/-- The bundle whose policy fields a command checks: that of `CFG`, `Q1` and `QS1`
(spec/60_exceptions.md R173). -/
def Instr.checkedPolicies? : Instr → Option Bundle
  | .cfg b => some b
  | .tosc _ => none
  | .touc _ => none
  | .tobs _ => none
  | .q _ => none
  | .qs _ => none
  | .desc _ => none
  | .q1 _ b => some b
  | .qs1 _ b => some b
  | .bndMinInt _ => none
  | .bndMaxInt _ => none
  | .bndRangeInt _ => none
  | .bndMinVal _ => none
  | .bndMaxVal _ => none
  | .bndPrec _ => none

/-- Both policy codes are recognized (spec/30_encoding.md R60, R61). -/
def Bundle.policiesKnown (b : Bundle) : Prop := b.ovf.toNat ≤ 1 ∧ b.rnd.toNat ≤ 4

/-- The buffer a `SEQ_RW` operand names (spec/30_encoding.md R63). -/
def SampleOperand.buffer? : SampleOperand → Option BufferId
  | .scalar _ => none
  | .seqRO _ => none
  | .seqRW b => some b

/-- The buffer an in-place command may write: that of a `QS` or `QS1` whose operand is `SEQ_RW`
(spec/44_quantizer_ops.md R164). -/
def Instr.writtenBuffer? : Instr → Option BufferId
  | .cfg _ => none
  | .tosc _ => none
  | .touc _ => none
  | .tobs _ => none
  | .q _ => none
  | .qs x => x.buffer?
  | .desc _ => none
  | .q1 _ _ => none
  | .qs1 x _ => x.buffer?
  | .bndMinInt _ => none
  | .bndMaxInt _ => none
  | .bndRangeInt _ => none
  | .bndMinVal _ => none
  | .bndMaxVal _ => none
  | .bndPrec _ => none

namespace Machine

/-- The context invariant (spec/10_state.md R23, R25): the width is at least 1 and each cached bound is
the bounds function of `(S, W, F)`. -/
def Context.coherent (c : Context) : Prop := 1 ≤ c.W ∧ c.toBounds = boundsOf c.S c.W c.F

/-- The invariant of the machine: memory in canonical form, and a coherent context whenever there is one. -/
def State.Inv (s : State) : Prop := s.mem.wf ∧ ∀ c, s.ctx = some c → c.coherent

/-- A step is safe when it answers a next state: neither a fault nor a refusal. -/
def State.stepsSafely (s : State) : Prop := ∃ t, step s = .next t

/-- A code is inside the format's range (spec/43_rounding_engine.md R134). -/
def Engine.inRange (e : Engine) (c : Int) : Prop := minInt e.S e.W ≤ c ∧ c ≤ maxInt e.S e.W

end Machine
end Sys2Proof
end

