-- ==== Sys2Proof/Certificates/Slice0/Obligations.lean ====
section
/-! DEFINITION. The statements for the provers, one Prop each; OBLIGATIONS.json lists them. -/
open Sys2Proof Sys2Proof.Machine

/-! ## Encoding and the step -/

/-- Decode and encode agree on every command, with every operand the ports admit (30_encoding.md R57 to R63). -/
def Obligations.DecodeEncodeAgreeOnPorts : Prop :=
  ∀ i : Instr, decode (encode i) = .ok i ∧
    ∀ n : Nat, i.wellFormed n = true → decodeWires (encodeWires n i) = .ok i

/-- The other direction: a decoded command carries the encoder's byte and the operands presented. Only a
`BND.*` command leaves fields of its bundle, the policy codes, unused. -/
def Obligations.DecodedCommandKeepsByteAndOperands : Prop :=
  ∀ (c : Command) (i : Instr), decode c = .ok i →
    i.byte = c.cmd ∧
    (∀ x, i.sample? = some x → ∃ p, c.sample = some p ∧ p.operand = some x) ∧
    (∀ b, i.bundle? = some b → ∃ b', c.bundle = some b' ∧ b'.toTriple = b.toTriple ∧
      (opField c.cmd ≠ 0xA#4 → b' = b))

/-- R69, with both operand ports presented: exactly which commands are illegal, what an illegal one does, and that a
reserved policy code is no illegal command but `InvalidPolicy`. -/
def Obligations.IllegalCommandsAreExactlyTheReservedOnes : Prop :=
  ∀ (c : Command) (bd : Bundle) (p : SamplePort), c.bundle = some bd → c.sample = some p →
    ((∃ e, decode c = .error e) ↔
      (c.cmd.toNat / 16 = 0 ∨ 0xB ≤ c.cmd.toNat / 16 ∨
       (c.cmd.toNat / 16 = 0xA ∧ (8 ≤ c.cmd.toNat % 16 ∨ c.cmd.toNat % 16 = 6 ∨ c.cmd.toNat % 16 = 7)) ∨
       (c.cmd.toNat / 16 = 7 ∧ 2 ≤ c.cmd.toNat % 16) ∨
       (c.cmd.toNat / 16 ∈ [1, 2, 3, 4, 5, 6, 8, 9] ∧ c.cmd.toNat % 16 ≠ 0) ∨
       (c.cmd.toNat / 16 ∈ [2, 3, 4, 5, 6, 8, 9] ∧ p.kind = 3#2))) ∧
    (∀ e s, decode c = .error e → runCommand c s = .next { s with response := some (.err .illegalCommand) }) ∧
    (∀ s, (c.cmd = 0x10#8 ∨ ((c.cmd = 0x80#8 ∨ c.cmd = 0x90#8) ∧ p.kind ≠ 3#2)) → 1 ≤ bd.W →
      (2 ≤ bd.ovf.toNat ∨ 5 ≤ bd.rnd.toNat) →
      runCommand c s = .next { s with response := some (.err .invalidPolicy) })

/-- The model's reading of a missing operand (93_implementation_defined.md U7; log 8): a command without an operand it
takes is illegal. -/
def Obligations.MissingOperandsAreIllegal : Prop :=
  ∀ c : Command,
    (c.bundle = none → c.cmd.toNat / 16 ∈ [1, 8, 9, 10] → ∃ e, decode c = .error e) ∧
    (c.sample = none → c.cmd.toNat / 16 ∈ [2, 3, 4, 5, 6, 8, 9] → ∃ e, decode c = .error e)

/-- A step runs the decoded command in the state that has consumed it (the input is the model's own, log 2); an illegal
one is answered; a command of the document's interface runs as the command it stands for. -/
def Obligations.StepRunsTheDecodedCommand : Prop :=
  ∀ (s : State) (c : Command) (rest : List HostEvent), s.input = .command c :: rest →
    (∀ i, decode c = .ok i → step s = exec i { s with input := rest }) ∧
    (∀ e, decode c = .error e →
      step s = .next { s with input := rest, response := some (.err .illegalCommand) }) ∧
    (∀ n, c = presentNamed n → step s = exec (expandNamed n) { s with input := rest } ∧
      step { s with input := .named n :: rest } = step s)

/-- A table word presented for the next step is run by it. -/
def Obligations.StepRunsTheTableWord : Prop :=
  ∀ (s : State) (nbits w : Nat) (i : Instr), decodeTableWord nbits w = some i →
    step (s.withFetchWord nbits w) = exec i s

/-- R73: the pseudo-operations and the command each stands for. -/
def Obligations.PseudoOperationsExpandAsListed : Prop :=
  (∀ x, expandNamed (.aliasQ x) = .q x ∧ expandNamed (.quantize x) = .q x) ∧
  (∀ x, expandNamed (.aliasQs x) = .qs x ∧ expandNamed (.quantizeSelf x) = .qs x) ∧
  (∀ S W F, expandNamed (.construct ⟨S, W, F, none, none⟩) =
    expandNamed (.construct ⟨S, W, F, some "Wrap", some "Truncate"⟩)) ∧
  (∀ S W F o, expandNamed (.construct ⟨S, W, F, o, none⟩) =
    expandNamed (.construct ⟨S, W, F, o, some "Truncate"⟩)) ∧
  expandNamed (.describe none) = .desc false ∧ expandNamed (.describe (some false)) = .desc false ∧
  (∀ x c, ∃ b, expandNamed (.quantizeOnce x c) = .q1 x b ∧ expandNamed (.quantizeSelfOnce x c) = .qs1 x b) ∧
  (∀ x S W F o, expandNamed (.quantizeOnce x ⟨S, W, F, none, none⟩) =
      expandNamed (.quantizeOnce x ⟨S, W, F, some "Wrap", some "Truncate"⟩) ∧
    expandNamed (.quantizeSelfOnce x ⟨S, W, F, none, none⟩) =
      expandNamed (.quantizeSelfOnce x ⟨S, W, F, some "Wrap", some "Truncate"⟩) ∧
    expandNamed (.quantizeOnce x ⟨S, W, F, o, none⟩) =
      expandNamed (.quantizeOnce x ⟨S, W, F, o, some "Truncate"⟩) ∧
    expandNamed (.quantizeSelfOnce x ⟨S, W, F, o, none⟩) =
      expandNamed (.quantizeSelfOnce x ⟨S, W, F, o, some "Truncate"⟩))

/-- A few command bytes decode to their commands (30_encoding.md R57, R58). -/
def Obligations.TableWordsDecode : Prop :=
  decodeTableWord 8 0x10 = some (.cfg ⟨⟨false, 0, 0⟩, 0#2, 0#3⟩) ∧
  decodeTableWord 8 0x50 = some (.q (.scalar 0)) ∧
  decodeTableWord 8 0x60 = some (.qs (.scalar 0)) ∧
  decodeTableWord 8 0x71 = some (.desc true) ∧
  decodeTableWord 8 0xA4 = some (.bndMaxVal ⟨false, 0, 0⟩) ∧
  decodeTableWord 8 0x00 = none ∧ decodeTableWord 8 0xA6 = none ∧ decodeTableWord 8 0x21 = none

/-! ## Bounds -/

/-- R81, R82, R91 to R93: the integer bounds of a width `w + 1`, answered in every state; a width that is not positive
is `InvalidFormat`. -/
def Obligations.IntegerBoundCommandsAnswer : Prop :=
  (∀ t, (Instr.bndMinInt t).byte = 0xA0#8 ∧ (Instr.bndMaxInt t).byte = 0xA1#8 ∧
    (Instr.bndRangeInt t).byte = 0xA2#8) ∧
  (∀ (w : Nat) (F : Int) (s : State),
    exec (.bndMinInt ⟨true, w + 1, F⟩) s = .next { s with response := some (.ok (some (.integer (-2 ^ w)))) } ∧
    exec (.bndMinInt ⟨false, w + 1, F⟩) s = .next { s with response := some (.ok (some (.integer 0))) } ∧
    exec (.bndMaxInt ⟨true, w + 1, F⟩) s = .next { s with response := some (.ok (some (.integer (2 ^ w - 1)))) } ∧
    exec (.bndMaxInt ⟨false, w + 1, F⟩) s =
      .next { s with response := some (.ok (some (.integer (2 ^ (w + 1) - 1)))) } ∧
    ∀ S, exec (.bndRangeInt ⟨S, w + 1, F⟩) s =
      .next { s with response := some (.ok (some (.integer (2 ^ (w + 1) - 1)))) }) ∧
  (∀ S W, rangeInt S W = maxInt S W - minInt S W) ∧
  (∀ (t : Triple) (s : State), t.W ≤ 0 →
    exec (.bndMinInt t) s = .next { s with response := some (.err .invalidFormat) } ∧
    exec (.bndMaxInt t) s = .next { s with response := some (.err .invalidFormat) } ∧
    exec (.bndRangeInt t) s = .next { s with response := some (.err .invalidFormat) })

/-- R85 to R87, R94 to R96: the real-valued bounds of a width `w + 1`, answered in every state. -/
def Obligations.RationalBoundCommandsAnswer : Prop :=
  (∀ t, (Instr.bndMinVal t).byte = 0xA3#8 ∧ (Instr.bndMaxVal t).byte = 0xA4#8 ∧
    (Instr.bndPrec t).byte = 0xA5#8) ∧
  (∀ (w : Nat) (F : Int) (s : State),
    exec (.bndMinVal ⟨true, w + 1, F⟩) s =
      .next { s with response := some (.ok (some (.rational (-2 ^ w / (2 : ℚ) ^ F)))) } ∧
    exec (.bndMinVal ⟨false, w + 1, F⟩) s = .next { s with response := some (.ok (some (.rational 0))) } ∧
    exec (.bndMaxVal ⟨true, w + 1, F⟩) s =
      .next { s with response := some (.ok (some (.rational ((2 ^ w - 1) / (2 : ℚ) ^ F)))) } ∧
    exec (.bndMaxVal ⟨false, w + 1, F⟩) s =
      .next { s with response := some (.ok (some (.rational ((2 ^ (w + 1) - 1) / (2 : ℚ) ^ F)))) } ∧
    ∀ S, exec (.bndPrec ⟨S, w + 1, F⟩) s =
      .next { s with response := some (.ok (some (.rational ((2 : ℚ) ^ (-F))))) }) ∧
  (∀ F, 0 < precision F) ∧
  (∀ S W F, minValue S W F = minInt S W * precision F ∧ maxValue S W F = maxInt S W * precision F) ∧
  (∀ (t : Triple) (s : State), t.W ≤ 0 →
    exec (.bndMinVal t) s = .next { s with response := some (.err .invalidFormat) } ∧
    exec (.bndMaxVal t) s = .next { s with response := some (.err .invalidFormat) } ∧
    exec (.bndPrec t) s = .next { s with response := some (.err .invalidFormat) })

/-- The invariants and consequences of R88 (40_bounds_calc.md section 1). -/
def Obligations.BoundsInvariantsHold : Prop :=
  ∀ (S : Bool) (W F : Int), 1 ≤ W →
    maxInt S W - minInt S W = rangeInt S W ∧ minValue S W F = minInt S W * precision F ∧
    maxValue S W F = maxInt S W * precision F ∧ precision F = (2 : ℚ) ^ (-F) ∧
    minInt S W ≤ 0 ∧ 0 ≤ maxInt S W ∧ minInt S W < maxInt S W ∧
    minValue S W F ≤ 0 ∧ 0 ≤ maxValue S W F ∧ maxInt S W - minInt S W + 1 = modulus W

/-! ## The validator -/

/-- R60, R61: the policy codes, all of them. -/
def Obligations.PolicyCodesAreTheTables : Prop :=
  overflowOfCode 0#2 = some .wrap ∧ overflowOfCode 1#2 = some .saturate ∧
  overflowOfCode 2#2 = none ∧ overflowOfCode 3#2 = none ∧
  roundingOfCode 0#3 = some .truncate ∧ roundingOfCode 1#3 = some .nearestAwayFromZero ∧
  roundingOfCode 2#3 = some .floor ∧ roundingOfCode 3#3 = some .ceil ∧ roundingOfCode 4#3 = some .towardZero ∧
  roundingOfCode 5#3 = none ∧ roundingOfCode 6#3 = none ∧ roundingOfCode 7#3 = none ∧
  Config.defaultOvf = 0#2 ∧ Config.defaultRnd = 0#3 ∧
  (∀ (b : Bundle) (s : State), 1 ≤ b.W → (overflowOfCode b.ovf = none ∨ roundingOfCode b.rnd = none) →
    exec (.cfg b) s = .next { s with response := some (.err .invalidPolicy) })

/-- R101, R102, R105 to R107: `CFG` writes all twelve fields whatever engine was there, or writes none and answers the
error of the first failing check: the width, then the policies. -/
def Obligations.CfgWritesTheWholeContextOrNothing : Prop :=
  (∀ b, (Instr.cfg b).byte = 0x10#8) ∧
  (∀ (b : Bundle) (o : OverflowPolicy) (r : RoundingPolicy) (s : State), 1 ≤ b.W →
    overflowOfCode b.ovf = some o → roundingOfCode b.rnd = some r →
    exec (.cfg b) s = .next { s with
      ctx := some { S := b.S, W := b.W, F := b.F, OVF := o, RND := r
                    MININT := minInt b.S b.W, MAXINT := maxInt b.S b.W, RANGEINT := rangeInt b.S b.W
                    MINVAL := minValue b.S b.W b.F, MAXVAL := maxValue b.S b.W b.F, PREC := precision b.F }
      response := some (.ok none) }) ∧
  (∀ (b : Bundle) (s : State), b.W ≤ 0 →
    exec (.cfg b) s = .next { s with response := some (.err .invalidFormat) }) ∧
  (∀ (b : Bundle) (s : State), 1 ≤ b.W → ¬ b.policiesKnown →
    exec (.cfg b) s = .next { s with response := some (.err .invalidPolicy) }) ∧
  (∀ s : State, exec (.cfg ⟨⟨false, 6, 2⟩, 0#2, 0#3⟩) s = .next { s with
      ctx := some { S := false, W := 6, F := 2, OVF := .wrap, RND := .truncate
                    MININT := 0, MAXINT := 63, RANGEINT := 63, MINVAL := 0, MAXVAL := 63 / 4, PREC := 1 / 4 }
      response := some (.ok none) })

/-- R62: the policy names. A name is recognized exactly when its letters, ASCII case apart, are those of a whole name of
its own position; an omitted one is the default; an unrecognized one is `InvalidPolicy`. -/
def Obligations.PolicyNamesMatchWholeAndCaseFree : Prop :=
  (∀ name : String, let n := name.toList.map Char.toLower
    (ovfCode (some name) = 0#2 ↔ n = "wrap".toList) ∧ (ovfCode (some name) = 1#2 ↔ n = "saturate".toList) ∧
    (rndCode (some name) = 0#3 ↔ n = "truncate".toList) ∧
    (rndCode (some name) = 1#3 ↔ n = "nearestawayfromzero".toList) ∧
    (rndCode (some name) = 2#3 ↔ n = "floor".toList) ∧ (rndCode (some name) = 3#3 ↔ n = "ceil".toList) ∧
    (rndCode (some name) = 4#3 ↔ n = "towardzero".toList)) ∧
  ovfCode none = ovfCode (some "Wrap") ∧ rndCode none = rndCode (some "Truncate") ∧
  (∀ (c : NamedConfig) (s : State), 1 ≤ c.W →
    ((∃ name, c.ovfName = some name ∧ name.toList.map Char.toLower ∉ ["wrap".toList, "saturate".toList]) ∨
     (∃ name, c.rndName = some name ∧ name.toList.map Char.toLower ∉
        ["truncate".toList, "nearestawayfromzero".toList, "floor".toList, "ceil".toList, "towardzero".toList])) →
    exec (expandNamed (.construct c)) s = .next { s with response := some (.err .invalidPolicy) })

/-! ## Overflow and rounding -/

/-- R111 to R114: scale by `2^F`; under `Wrap` the floored residue modulo `2^W`, less `2^W` where a signed format's
residue is strictly above `2^(W-1) - 1`; under `Saturate` the clamp to the bounds. -/
def Obligations.OverflowUnitFollowsItsSteps : Prop :=
  ∀ (e : Engine) (x : Sample), 1 ≤ e.W →
    let raw : ℚ := x * (2 : ℚ) ^ e.F
    let M : ℚ := (2 : ℚ) ^ e.W
    let res : ℚ := raw - M * ⌊raw / M⌋
    let lo : ℚ := if e.S then -(2 : ℚ) ^ (e.W - 1) else 0
    let hi : ℚ := if e.S then (2 : ℚ) ^ (e.W - 1) - 1 else (2 : ℚ) ^ e.W - 1
    0 ≤ res ∧ res < M ∧ M = (rangeInt e.S e.W : ℚ) + 1 ∧
    (e.OVF = .wrap → ovf e x = if e.S = true ∧ hi < res then res - M else res) ∧
    (e.OVF = .saturate → ovf e x = if raw < lo then lo else if hi < raw then hi else raw)

/-- The ranges of the overflow unit's value (42_overflow_saturation_unit.md section 4, R116), and exactly when it lies
outside the format's range. -/
def Obligations.OverflowUnitRange : Prop :=
  ∀ (e : Engine) (x : Sample), 1 ≤ e.W →
    let res := residue e.W (scale e.F x)
    let lo : ℚ := minInt e.S e.W
    let hi : ℚ := maxInt e.S e.W
    (e.OVF = .wrap → e.S = false → 0 ≤ ovf e x ∧ ovf e x < modulus e.W) ∧
    (e.OVF = .wrap → e.S = true →
      (0 ≤ ovf e x ∧ ovf e x ≤ hi) ∨ (lo - 1 < ovf e x ∧ ovf e x < 0)) ∧
    (e.OVF = .wrap → (¬ (lo ≤ ovf e x ∧ ovf e x ≤ hi) ↔ hi < res ∧ res < hi + 1)) ∧
    (e.OVF = .saturate → lo ≤ ovf e x ∧ ovf e x ≤ hi)

/-- In-range scaled values pass unchanged (42_overflow_saturation_unit.md section 4, R117), and under `Wrap` in a signed
format so do those less than one below the range. -/
def Obligations.InRangeValuesPassUnchanged : Prop :=
  ∀ (e : Engine) (x : Sample), 1 ≤ e.W →
    ((minInt e.S e.W : ℚ) ≤ scale e.F x → scale e.F x ≤ maxInt e.S e.W → ovf e x = scale e.F x) ∧
    (e.OVF = .wrap → e.S = true → (minInt e.S e.W : ℚ) - 1 < scale e.F x → scale e.F x < 0 →
      ovf e x = scale e.F x)

/-- R126 to R130: each policy's function, said by the inequalities that determine it, with the rules' examples. -/
def Obligations.RoundingPoliciesAreTheirFunctions : Prop :=
  (∀ v : ℚ,
    ((rnd .truncate v : ℚ) ≤ v ∧ v < rnd .truncate v + 1) ∧
    ((rnd .floor v : ℚ) ≤ v ∧ v < rnd .floor v + 1) ∧
    (v ≤ rnd .ceil v ∧ (rnd .ceil v : ℚ) < v + 1) ∧
    (|(rnd .nearestAwayFromZero v : ℚ) - v| ≤ 1 / 2 ∧
      (|(rnd .nearestAwayFromZero v : ℚ) - v| = 1 / 2 → |v| < |(rnd .nearestAwayFromZero v : ℚ)|)) ∧
    (|(rnd .towardZero v : ℚ)| ≤ |v| ∧ |v| < |(rnd .towardZero v : ℚ)| + 1 ∧ 0 ≤ rnd .towardZero v * v) ∧
    rnd .nearestAwayFromZero v = (if 0 ≤ v then ⌊v + 1 / 2⌋ else -⌊-v + 1 / 2⌋) ∧
    rnd .towardZero v = (if 0 ≤ v then ⌊v⌋ else ⌈v⌉)) ∧
  rnd .truncate (-24 / 10) = -3 ∧
  rnd .nearestAwayFromZero (25 / 10) = 3 ∧ rnd .nearestAwayFromZero (-25 / 10) = -3 ∧
  rnd .nearestAwayFromZero (24 / 10) = 2 ∧ rnd .nearestAwayFromZero (-24 / 10) = -2 ∧
  rnd .nearestAwayFromZero (1 / 2) = 1 ∧ rnd .nearestAwayFromZero (-1 / 2) = -1 ∧
  rnd .ceil (24 / 10) = 3 ∧ rnd .ceil (-24 / 10) = -2 ∧
  rnd .towardZero (26 / 10) = 2 ∧ rnd .towardZero (-26 / 10) = -2 ∧
  (∀ v : ℚ, -1 < v → v < 0 → rnd .towardZero v = 0)

/-- R132: `Truncate` and `Floor` are one arithmetic in every conversion, two codes, and told apart by `DESC`. -/
def Obligations.TruncateAndFloorConvertAlike : Prop :=
  (∀ (e : Engine) (x : Sample),
    sc { e with RND := .truncate } x = sc { e with RND := .floor } x ∧
    uc { e with RND := .truncate } x = uc { e with RND := .floor } x ∧
    bs { e with RND := .truncate } x = bs { e with RND := .floor } x ∧
    qv { e with RND := .truncate } x = qv { e with RND := .floor } x) ∧
  (∀ (s : State) (c : Context) (i : Instr), i.usesContext = true → (∀ v, i ≠ .desc v) →
    ∃ (m : Memory) (r : Option Response),
      exec i { s with ctx := some { c with RND := .truncate } } =
        .next { s with ctx := some { c with RND := .truncate }, mem := m, response := r } ∧
      exec i { s with ctx := some { c with RND := .floor } } =
        .next { s with ctx := some { c with RND := .floor }, mem := m, response := r }) ∧
  (∀ (s : State) (x : SampleOperand) (b : Bundle),
    exec (.q1 x { b with rnd := 0#3 }) s = exec (.q1 x { b with rnd := 2#3 }) s ∧
    exec (.qs1 x { b with rnd := 0#3 }) s = exec (.qs1 x { b with rnd := 2#3 }) s) ∧
  roundingOfCode 0#3 = some .truncate ∧ roundingOfCode 2#3 = some .floor ∧
  (∀ (s : State) (c : Context) (v : Bool), s.ctx = some c → ∃ b,
    exec (.desc v) s = .next { s with response := some (.ok (some (.record
      { S := c.S, W := c.W, F := c.F, OVF := c.OVF, RND := c.RND } b))) })

/-- Integers are fixed points of all five policies (43_rounding_engine.md section 2, R133), so a sample whose scaled value
is an in-range integer has that integer as its signed code under every policy pair. -/
def Obligations.InRangeIntegersAreTheirOwnCode : Prop :=
  (∀ (p : RoundingPolicy) (z : Int), rnd p z = z) ∧
  (∀ (e : Engine) (x : Sample) (z : Int), 1 ≤ e.W → scale e.F x = z → e.inRange z → sc e x = z)

/-- The ranges of the signed code, policy by policy, and exactly when each out-of-range value is reached
(43_rounding_engine.md section 3, R134). -/
def Obligations.SignedCodeRangeByPolicy : Prop :=
  ∀ (e : Engine) (x : Sample), 1 ≤ e.W →
    let res := residue e.W (scale e.F x)
    let hi : ℚ := maxInt e.S e.W
    (e.OVF = .saturate → e.inRange (sc e x)) ∧
    (e.OVF = .wrap → e.S = false → e.RND ∈ [.truncate, .floor, .towardZero] → e.inRange (sc e x)) ∧
    (e.OVF = .wrap → e.S = false → e.RND = .ceil →
      0 ≤ sc e x ∧ sc e x ≤ maxInt e.S e.W + 1 ∧ (sc e x = maxInt e.S e.W + 1 ↔ hi < res)) ∧
    (e.OVF = .wrap → e.S = false → e.RND = .nearestAwayFromZero →
      0 ≤ sc e x ∧ sc e x ≤ maxInt e.S e.W + 1 ∧ (sc e x = maxInt e.S e.W + 1 ↔ hi + 1 / 2 ≤ res)) ∧
    (e.OVF = .wrap → e.S = true → e.RND ∈ [.ceil, .towardZero] → e.inRange (sc e x)) ∧
    (e.OVF = .wrap → e.S = true → e.RND ∈ [.truncate, .floor] →
      minInt e.S e.W - 1 ≤ sc e x ∧ sc e x ≤ maxInt e.S e.W ∧
      (sc e x = minInt e.S e.W - 1 ↔ hi < res ∧ res < hi + 1)) ∧
    (e.OVF = .wrap → e.S = true → e.RND = .nearestAwayFromZero →
      minInt e.S e.W - 1 ≤ sc e x ∧ sc e x ≤ maxInt e.S e.W ∧
      (sc e x = minInt e.S e.W - 1 ↔ hi < res ∧ res ≤ hi + 1 / 2))

/-! ## The scalar functions -/

/-- The unsigned code: the mapping of a negative code, its range, and exactly when it is `2^W`
(44_quantizer_ops.md R143 and section 4, R157). -/
def Obligations.UnsignedCodeMappingAndRange : Prop :=
  ∀ (e : Engine) (x : Sample), 1 ≤ e.W →
    let M : Int := 2 ^ e.W.toNat
    let res := residue e.W (scale e.F x)
    let hi : ℚ := maxInt e.S e.W
    uc e x = (if sc e x < 0 then sc e x + M else sc e x) ∧ 0 ≤ uc e x ∧ uc e x ≤ M ∧
    (uc e x = M ↔ e.S = false ∧ e.OVF = .wrap ∧
      ((e.RND = .ceil ∧ hi < res) ∨ (e.RND = .nearestAwayFromZero ∧ hi + 1 / 2 ≤ res)))

/-- R68, R154: a bit string has exactly `W` digits, each `0` or `1`; it is the numeral of the unsigned code modulo `2^W`,
bit `W-1` first; the code `2^W` gives `W` zeros. -/
def Obligations.BitStringIsTheNumeralOfWidthDigits : Prop :=
  (∀ (e : Engine) (x : Sample), 1 ≤ e.W →
    (bs e x).length = e.W.toNat ∧ (∀ d ∈ bs e x, d = '0' ∨ d = '1') ∧
    unsignedWeight (bs e x) = uc e x % 2 ^ e.W.toNat ∧
    (∀ i : Nat, i < e.W.toNat → (bs e x)[e.W.toNat - 1 - i]? =
      some (if uc e x % 2 ^ e.W.toNat / 2 ^ i % 2 = 1 then '1' else '0')) ∧
    (uc e x = 2 ^ e.W.toNat → bs e x = List.replicate e.W.toNat '0')) ∧
  bitText 6 4 = "000100".toList ∧ bitText 6 59 = "111011".toList

/-- Where the signed code is in range, its bit string is its two's-complement pattern (30_encoding.md section 5, R75). -/
def Obligations.BitStringIsTwosComplementInRange : Prop :=
  ∀ (e : Engine) (x : Sample), 1 ≤ e.W → e.inRange (sc e x) → patternCode e.S (bs e x) = sc e x

/-- R145: the quantized value is the signed code over `2^F`, equally the code times the precision. -/
def Obligations.QuantizedValueIsCodeTimesPrecision : Prop :=
  ∀ (e : Engine) (x : Sample), qv e x = sc e x / (2 : ℚ) ^ e.F ∧ qv e x = sc e x * precision e.F ∧
    qv e x * (2 : ℚ) ^ e.F = sc e x

/-- Result ports of the widths the spec names carry every code (30_encoding.md section 5, R66, R67). -/
def Obligations.ResultPortsCarryEveryCode : Prop :=
  ∀ (e : Engine) (x : Sample), 1 ≤ e.W →
    (signedCodePort e.W.toNat (sc e x)).toInt = sc e x ∧
    ((unsignedCodePort e.W.toNat (uc e x)).toNat : Int) = uc e x

/-- Quantizing twice is quantizing once wherever the signed code is in range, and so always for the engines the spec
lists (44_quantizer_ops.md section 4, R155). -/
def Obligations.QuantizeIsIdempotentInRange : Prop :=
  ∀ (e : Engine) (x : Sample), 1 ≤ e.W →
    (e.inRange (sc e x) → qv e (qv e x) = qv e x) ∧
    ((e.OVF = .saturate ∨ (e.S = false ∧ e.RND ∈ [.truncate, .floor, .towardZero]) ∨
      (e.S = true ∧ e.RND ∈ [.ceil, .towardZero])) → qv e (qv e x) = qv e x)

/-- Under `Saturate` every quantized value lies between the format's bounds (44_quantizer_ops.md section 4, R156). -/
def Obligations.SaturatedValuesStayWithinBounds : Prop :=
  ∀ (e : Engine) (x : Sample), 1 ≤ e.W → e.OVF = .saturate →
    minValue e.S e.W e.F ≤ qv e x ∧ qv e x ≤ maxValue e.S e.W e.F

/-! ## The commands on samples -/

/-- `TOSC` and `TOUC` with an engine: the codes element by element in the operand's shape, and nothing else changes, for
each kind of operand (44_quantizer_ops.md R141 to R143, R146, R147). -/
def Obligations.CodeCommandsAnswerElementwise : Prop :=
  ∀ (s : State) (c : Context), s.ctx = some c →
    let code : Sample → Int := fun x => rnd c.RND (ovf c.toEngine x)
    let ucode : Sample → Int := fun x => if code x < 0 then code x + 2 ^ c.W.toNat else code x
    (∀ x, exec (.tosc (.scalar x)) s = .next { s with response := some (.ok (some (.codes (.scalar (code x))))) }) ∧
    (∀ xs, exec (.tosc (.seqRO xs)) s = .next { s with response := some (.ok (some (.codes (.seq (xs.map code))))) }) ∧
    (∀ b, exec (.tosc (.seqRW b)) s =
      .next { s with response := some (.ok (some (.codes (.seq ((s.mem.buffer b).map code))))) }) ∧
    (∀ x, exec (.touc (.scalar x)) s = .next { s with response := some (.ok (some (.codes (.scalar (ucode x))))) }) ∧
    (∀ xs, exec (.touc (.seqRO xs)) s =
      .next { s with response := some (.ok (some (.codes (.seq (xs.map ucode))))) }) ∧
    (∀ b, exec (.touc (.seqRW b)) s =
      .next { s with response := some (.ok (some (.codes (.seq ((s.mem.buffer b).map ucode))))) }) ∧
    code 0 = 0

/-- `TOBS` and `Q` with an engine, in the same form (44_quantizer_ops.md R141, R144, R145, R148, R149). -/
def Obligations.TextAndValueCommandsAnswerElementwise : Prop :=
  ∀ (s : State) (c : Context), s.ctx = some c →
    let text : Sample → BitText := fun x => bitText c.W (uc c.toEngine x)
    let value : Sample → ℚ := fun x => sc c.toEngine x / (2 : ℚ) ^ c.F
    (∀ x, exec (.tobs (.scalar x)) s =
      .next { s with response := some (.ok (some (.bitStrings (.scalar (text x))))) }) ∧
    (∀ xs, exec (.tobs (.seqRO xs)) s =
      .next { s with response := some (.ok (some (.bitStrings (.seq (xs.map text))))) }) ∧
    (∀ b, exec (.tobs (.seqRW b)) s =
      .next { s with response := some (.ok (some (.bitStrings (.seq ((s.mem.buffer b).map text))))) }) ∧
    (∀ x, exec (.q (.scalar x)) s = .next { s with response := some (.ok (some (.values (.scalar (value x))))) }) ∧
    (∀ xs, exec (.q (.seqRO xs)) s = .next { s with response := some (.ok (some (.values (.seq (xs.map value))))) }) ∧
    (∀ b, exec (.q (.seqRW b)) s =
      .next { s with response := some (.ok (some (.values (.seq ((s.mem.buffer b).map value))))) })

/-- R159 and the command `QS` (44_quantizer_ops.md section 3): `QS` on a writable buffer leaves every element quantized in place and nothing else changed but the
response; on any other operand it writes nothing and answers `TypeMismatch`, and without an engine `NoEngine`. -/
def Obligations.QsQuantizesItsBufferInPlace : Prop :=
  (∀ x, (Instr.qs x).byte = 0x60#8) ∧
  (∀ (s : State) (c : Context) (b : BufferId), s.ctx = some c → ∃ m : Memory,
    exec (.qs (.seqRW b)) s = .next { s with mem := m, response := some (.ok none) } ∧
    m.buffer b = (s.mem.buffer b).map (qv c.toEngine) ∧ ∀ b', b' ≠ b → m.buffer b' = s.mem.buffer b') ∧
  (∀ (s : State) (c : Context), s.ctx = some c →
    (∀ x, exec (.qs (.scalar x)) s = .next { s with response := some (.err .typeMismatch) }) ∧
    (∀ xs, exec (.qs (.seqRO xs)) s = .next { s with response := some (.err .typeMismatch) })) ∧
  (∀ (s : State) (x : SampleOperand), s.ctx = none →
    exec (.qs x) s = .next { s with response := some (.err .noEngine) }) ∧
  (∀ (s : State) (c : Context) (b : BufferId), s.ctx = some c →
    c.toEngine = { S := false, W := 6, F := 2, OVF := .saturate, RND := .truncate } →
    s.mem.buffer b = [123 / 100, -12 / 10, 341 / 10, 0, 326 / 100, 1, -234 / 100] → ∃ m : Memory,
    exec (.qs (.seqRW b)) s = .next { s with mem := m, response := some (.ok none) } ∧
    m.buffer b = [1, 0, 63 / 4, 0, 13 / 4, 1, 0])

/-- `QS1` (44_quantizer_ops.md section 3, R152) constructs first and then quantizes in place; it neither reads nor writes the context. -/
def Obligations.Qs1ConstructsThenQuantizesInPlace : Prop :=
  (∀ x bd, (Instr.qs1 x bd).byte = 0x90#8) ∧
  (∀ (s : State) (bd : Bundle) (o : OverflowPolicy) (r : RoundingPolicy), 1 ≤ bd.W →
    overflowOfCode bd.ovf = some o → roundingOfCode bd.rnd = some r →
    (∀ b : BufferId, ∃ m : Memory,
      exec (.qs1 (.seqRW b) bd) s = .next { s with mem := m, response := some (.ok none) } ∧
      m.buffer b = (s.mem.buffer b).map (qv { S := bd.S, W := bd.W, F := bd.F, OVF := o, RND := r }) ∧
      ∀ b', b' ≠ b → m.buffer b' = s.mem.buffer b') ∧
    (∀ x, exec (.qs1 (.scalar x) bd) s = .next { s with response := some (.err .typeMismatch) }) ∧
    (∀ xs, exec (.qs1 (.seqRO xs) bd) s = .next { s with response := some (.err .typeMismatch) })) ∧
  (∀ (s : State) (bd : Bundle) (x : SampleOperand), bd.W ≤ 0 →
    exec (.qs1 x bd) s = .next { s with response := some (.err .invalidFormat) }) ∧
  (∀ (s : State) (bd : Bundle) (x : SampleOperand), 1 ≤ bd.W → ¬ bd.policiesKnown →
    exec (.qs1 x bd) s = .next { s with response := some (.err .invalidPolicy) }) ∧
  (∀ (s : State) (b : BufferId), s.mem.buffer b = [341 / 10, -12 / 10] → ∃ m : Memory,
    exec (.qs1 (.seqRW b) ⟨⟨false, 6, 2⟩, 1#2, 0#3⟩) s = .next { s with mem := m, response := some (.ok none) } ∧
    m.buffer b = [63 / 4, 0])

/-- R151: `Q1` answers what `CFG` followed by `Q` would answer, without the context write, in every state; its errors are
those of the construction. -/
def Obligations.Q1AnswersAsCfgThenQ : Prop :=
  (∀ x bd, (Instr.q1 x bd).byte = 0x80#8) ∧
  (∀ (s : State) (bd : Bundle) (o : OverflowPolicy) (r : RoundingPolicy) (x : SampleOperand), 1 ≤ bd.W →
    overflowOfCode bd.ovf = some o → roundingOfCode bd.rnd = some r →
    exec (.q1 x bd) s = .next { s with response := some (.ok (some (.values (elementwise
      (qv { S := bd.S, W := bd.W, F := bd.F, OVF := o, RND := r }) (loadOperand s.mem x))))) } ∧
    ∃ t u, exec (.cfg bd) s = .next t ∧ exec (.q x) t = .next u ∧
      exec (.q1 x bd) s = .next { s with response := u.response }) ∧
  (∀ (s : State) (bd : Bundle) (x : SampleOperand), bd.W ≤ 0 →
    exec (.q1 x bd) s = .next { s with response := some (.err .invalidFormat) }) ∧
  (∀ (s : State) (bd : Bundle) (x : SampleOperand), 1 ≤ bd.W → ¬ bd.policiesKnown →
    exec (.q1 x bd) s = .next { s with response := some (.err .invalidPolicy) }) ∧
  (∀ (c : NamedConfig) (x : SampleOperand), expandNamed (.quantizeOnce x { c with ovfName := none, rndName := none }) =
    .q1 x ⟨⟨c.S, c.W, c.F⟩, 0#2, 0#3⟩) ∧
  (∀ s : State, exec (.q1 (.scalar (31415926 / 10000000)) ⟨⟨true, 3, -1⟩, 0#2, 0#3⟩) s =
    .next { s with response := some (.ok (some (.values (.scalar 2)))) }) ∧
  (∀ s : State, exec (.q1 (.scalar 1) ⟨⟨true, 0, 0⟩, 0#2, 0#3⟩) s =
    .next { s with response := some (.err .invalidFormat) })

/-- R153: `DESC` answers the record of the context: five fields, and the six cached bounds when verbose. -/
def Obligations.DescAnswersTheContextRecord : Prop :=
  ((Instr.desc false).byte = 0x70#8 ∧ (Instr.desc true).byte = 0x71#8) ∧
  (∀ (s : State) (c : Context), s.ctx = some c →
    exec (.desc false) s = .next { s with response := some (.ok (some (.record
      { S := c.S, W := c.W, F := c.F, OVF := c.OVF, RND := c.RND } none))) } ∧
    exec (.desc true) s = .next { s with response := some (.ok (some (.record
      { S := c.S, W := c.W, F := c.F, OVF := c.OVF, RND := c.RND }
      (some { MININT := c.MININT, MAXINT := c.MAXINT, RANGEINT := c.RANGEINT
              MINVAL := c.MINVAL, MAXVAL := c.MAXVAL, PREC := c.PREC })))) }) ∧
  (∀ (s : State) (v : Bool), s.ctx = none →
    exec (.desc v) s = .next { s with response := some (.err .noEngine) }) ∧
  (∀ s : State, ∃ t, exec (.cfg ⟨⟨true, 3, -1⟩, 0#2, 0#3⟩) s = .next t ∧
    exec (.desc true) t = .next { t with response := some (.ok (some (.record
      { S := true, W := 3, F := -1, OVF := .wrap, RND := .truncate }
      (some { MININT := -4, MAXINT := 3, RANGEINT := 7, MINVAL := -8, MAXVAL := 6, PREC := 2 })))) })

/-- Under `Saturate`, if a `QS` and then a second `QS` on the same buffer both answer next states, the second state is
the first (44_quantizer_ops.md R150, R155). -/
def Obligations.SecondSaturatingQsChangesNothing : Prop :=
  ∀ (s t u : State) (c : Context) (b : BufferId), s.ctx = some c → 1 ≤ c.W → c.OVF = .saturate →
    exec (.qs (.seqRW b)) s = .next t → exec (.qs (.seqRW b)) t = .next u → u = t

/-! ## Errors -/

/-- R172 to R175, R179: exactly when a command answers each error; a decoded command never answers `IllegalCommand`, and
one that does not decode answers nothing else. The conditions exclude each other, so one error is reported. -/
def Obligations.EachErrorExactlyWhenItsRuleSays : Prop :=
  (∀ (c : Command) (s : State), (∃ e, decode c = .error e) →
    runCommand c s = .next { s with response := some (.err .illegalCommand) }) ∧
  ∀ (i : Instr) (s t : State), exec i s = .next t →
    (t.response = some (.err .noEngine) ↔ i.usesContext = true ∧ s.ctx = none) ∧
    (t.response = some (.err .invalidFormat) ↔ ∃ b, i.bundle? = some b ∧ b.W ≤ 0) ∧
    (t.response = some (.err .invalidPolicy) ↔
      ∃ b, i.checkedPolicies? = some b ∧ 1 ≤ b.W ∧ (2 ≤ b.ovf.toNat ∨ 5 ≤ b.rnd.toNat)) ∧
    (t.response = some (.err .typeMismatch) ↔
      (∃ x, i = .qs x ∧ s.ctx ≠ none ∧ ∀ b, x ≠ .seqRW b) ∨
      (∃ x bd, i = .qs1 x bd ∧ 1 ≤ bd.W ∧ bd.policiesKnown ∧ ∀ b, x ≠ .seqRW b)) ∧
    (t.response = some (.err .typeMismatch) → t.mem = s.mem) ∧
    t.response ≠ some (.err .illegalCommand)

/-- The status codes; an error has no result (60_exceptions.md section 1, R171; 30_encoding.md R64). -/
def Obligations.StatusCodesAreTheTables : Prop :=
  (∀ r, (Response.ok r).status = 0#3) ∧ (Response.err .invalidFormat).status = 1#3 ∧
  (Response.err .invalidPolicy).status = 2#3 ∧ (Response.err .typeMismatch).status = 3#3 ∧
  (Response.err .noEngine).status = 4#3 ∧ (Response.err .illegalCommand).status = 5#3 ∧
  (∀ r : Response, r.status ≠ 6#3 ∧ r.status ≠ 7#3) ∧ (∀ e, (Response.err e).result = none)

/-- An error leaves no trace but its response (60_exceptions.md section 4, R180). -/
def Obligations.ErrorsLeaveNoTrace : Prop :=
  ∀ (i : Instr) (s t : State) (e : Error), exec i s = .next t → t.response = some (.err e) →
    t = { s with response := some (.err e) }

/-! ## What changes and what does not -/

/-- R26: no command but `CFG` writes a field of the context, and `CFG` writes all of it or none. -/
def Obligations.OnlyCfgWritesTheContext : Prop :=
  ∀ (i : Instr) (s t : State), exec i s = .next t →
    ((∀ b, i ≠ .cfg b) → t.ctx = s.ctx) ∧
    (∀ b, i = .cfg b → t.ctx = s.ctx ∨ ∃ e, validate b = .ok e ∧ t.ctx = some (contextOf e))

/-- R22: a successful `CFG` sets `ctx.VALID` and nothing else does, a reset clears it and nothing else does, over every
event the host can present; while it is 0 a command that uses the context answers `NoEngine`. -/
def Obligations.ValidIsSetByCfgAndClearedByReset : Prop :=
  (∀ (b : Bundle) (s : State), 1 ≤ b.W → b.policiesKnown → ∃ t, exec (.cfg b) s = .next t ∧ t.valid = true) ∧
  (∀ (s : State) (rest : List HostEvent), s.input = .reset :: rest → ∃ t, step s = .next t ∧ t.valid = false) ∧
  (∀ s t : State, step s = .next t → s.valid = true → t.valid = false → ∃ rest, s.input = .reset :: rest) ∧
  (∀ s t : State, step s = .next t → s.valid = false → t.valid = true →
    ∃ c b e, acceptWork s = .run c ∧ decode c = .ok (.cfg b) ∧ validate b = .ok e ∧
      t.ctx = some (contextOf e) ∧ t.response = some (.ok none)) ∧
  (∀ (i : Instr) (s : State), i.usesContext = true → s.valid = false →
    exec i s = .next { s with response := some (.err .noEngine) })

/-- Frame: a command consumes no input, and every element of every buffer reads as before except those of the buffer an
in-place command names (44_quantizer_ops.md R164; 20_memory.md R44). -/
def Obligations.OnlyTheNamedBufferIsWritten : Prop :=
  ∀ (i : Instr) (s t : State), exec i s = .next t →
    t.input = s.input ∧
    (i.writtenBuffer? = none → t.mem = s.mem) ∧
    (∀ b k, i.writtenBuffer? ≠ some b → memRead t.mem b k = memRead s.mem b k)

/-- Element access: inside the buffer a write stores exactly the value given and changes no other element of any buffer;
outside it there is no access (00_scope.md R13; 20_memory.md R41, R45). -/
def Obligations.ElementWriteChangesOneElement : Prop :=
  ∀ (m : Memory) (b : BufferId) (i : Nat) (v : Sample),
    (i < (m.buffer b).length → ∃ m', memWrite m b i v = some m' ∧ memRead m' b i = some v ∧
      ∀ c j, (c, j) ≠ (b, i) → memRead m' c j = memRead m c j) ∧
    ((m.buffer b).length ≤ i → memWrite m b i v = none ∧ memRead m b i = none)

/-- R35: the one-shot commands neither read nor write the context: with any other context they answer the same and leave
that one as it was. -/
def Obligations.OneShotsNeitherReadNorWriteTheContext : Prop :=
  ∀ (i : Instr) (s : State) (c : Option Context), i.oneShot = true → ∃ (m : Memory) (r : Option Response),
    exec i s = .next { s with mem := m, response := r } ∧
    exec i { s with ctx := c } = .next { s with ctx := c, mem := m, response := r }

/-- No state remembers an error: a step's effect does not depend on the response before it (60_exceptions.md section 4,
R181; 10_state.md R28). -/
def Obligations.StepForgetsTheLastResponse : Prop :=
  ∀ (s : State) (r : Option Response), ∃ t u, step s = .next t ∧ step { s with response := r } = .next u ∧
    u.ctx = t.ctx ∧ u.mem = t.mem ∧ u.input = t.input ∧ (∀ c, acceptWork s = .run c → u.response = t.response)

/-! ## Reset and the invariant -/

/-- Reset leaves no engine, at power-on and as an event; the event leaves the host's buffers (70_reset_and_hazards.md
section 1, R190, R191). -/
def Obligations.ResetLeavesNoEngine : Prop :=
  State.reset.ctx = none ∧
  ∀ (s : State) (rest : List HostEvent), s.input = .reset :: rest →
    ∃ t, step s = .next t ∧ t.ctx = none ∧ t.mem = s.mem ∧ t.input = rest

/-- The model's choices about the host's side (logs 3 and 17): with nothing presented a step changes nothing; a write by
the host replaces one buffer and leaves the block alone. -/
def Obligations.HostSideStepsLeaveTheBlock : Prop :=
  (∀ s : State, s.input = [] → step s = .next s) ∧
  (∀ (s : State) (b : BufferId) (xs : List Sample) (rest : List HostEvent), s.Inv →
    s.input = .hostWrite b xs :: rest → ∃ m : Memory, step s = .next { s with mem := m, input := rest } ∧
      m.buffer b = xs ∧ ∀ b', b' ≠ b → m.buffer b' = s.mem.buffer b')

/-- Every step keeps the invariant: memory stays canonical, and a context that is there has a width of at least 1 and the
bounds of its own format cached (10_state.md R23, R25). -/
def Obligations.StepKeepsTheInvariant : Prop :=
  ∀ s t : State, s.Inv → step s = .next t → t.Inv

/-- The invariant holds right after reset. -/
def Obligations.ResetMeetsTheInvariant : Prop := State.reset.Inv

/-- Every step of every state answers a next state: no command, legal or not, ends in a fault or a refusal
(60_exceptions.md R177, R180; 70_reset_and_hazards.md R199). -/
def Obligations.EveryStepAnswersANextState : Prop := ∀ s : State, s.stepsSafely
end

