-- ==== Sys2Proof/Laws/State.lean ====
section
/-! SUPPORT. One lemma per field per update of State, and what each shared operation can answer. -/
namespace Sys2Proof.Machine

/-! ## Updates, field by field -/

@[simp] theorem writeContext_ctx (c : Context) (s : State) : (writeContext c s).ctx = some c := rfl
@[simp] theorem writeContext_mem (c : Context) (s : State) : (writeContext c s).mem = s.mem := rfl
@[simp] theorem writeContext_input (c : Context) (s : State) : (writeContext c s).input = s.input := rfl
@[simp] theorem writeContext_response (c : Context) (s : State) : (writeContext c s).response = s.response := rfl

@[simp] theorem hostReset_ctx (s : State) : (hostReset s).ctx = none := rfl
@[simp] theorem hostReset_mem (s : State) : (hostReset s).mem = s.mem := rfl
@[simp] theorem hostReset_input (s : State) : (hostReset s).input = s.input := rfl
@[simp] theorem hostReset_response (s : State) : (hostReset s).response = none := rfl

@[simp] theorem hostWrite_ctx (b : BufferId) (xs : List Sample) (s : State) : (hostWrite b xs s).ctx = s.ctx := rfl
@[simp] theorem hostWrite_mem (b : BufferId) (xs : List Sample) (s : State) :
    (hostWrite b xs s).mem = s.mem.store b xs := rfl
@[simp] theorem hostWrite_input (b : BufferId) (xs : List Sample) (s : State) :
    (hostWrite b xs s).input = s.input := rfl
@[simp] theorem hostWrite_response (b : BufferId) (xs : List Sample) (s : State) :
    (hostWrite b xs s).response = s.response := rfl

@[simp] theorem consumeInput_ctx (s : State) : (consumeInput s).ctx = s.ctx := rfl
@[simp] theorem consumeInput_mem (s : State) : (consumeInput s).mem = s.mem := rfl
@[simp] theorem consumeInput_input (s : State) : (consumeInput s).input = s.input.tail := rfl
@[simp] theorem consumeInput_response (s : State) : (consumeInput s).response = s.response := rfl

@[simp] theorem presentNext_ctx (c : Command) (s : State) : (presentNext c s).ctx = s.ctx := rfl
@[simp] theorem presentNext_mem (c : Command) (s : State) : (presentNext c s).mem = s.mem := rfl
@[simp] theorem presentNext_input (c : Command) (s : State) : (presentNext c s).input = .command c :: s.input := rfl
@[simp] theorem presentNext_response (c : Command) (s : State) : (presentNext c s).response = s.response := rfl

@[simp] theorem consumeInput_presentNext (c : Command) (s : State) : consumeInput (presentNext c s) = s := rfl
@[simp] theorem acceptWork_presentNext (c : Command) (s : State) : acceptWork (presentNext c s) = .run c := rfl

/-! ## The context a CFG writes -/

@[simp] theorem contextOf_toEngine (e : Engine) : (contextOf e).toEngine = e := rfl
@[simp] theorem contextOf_toBounds (e : Engine) : (contextOf e).toBounds = boundsOf e.S e.W e.F := rfl

/-! ## Status -/

@[simp] theorem status_ok (r : Option Result) : (Response.ok r).status = 0#3 := rfl
@[simp] theorem status_err (e : Error) : (Response.err e).status = e.code := rfl
@[simp] theorem result_ok (r : Option Result) : (Response.ok r).result = r := rfl
@[simp] theorem result_err (e : Error) : (Response.err e).result = none := rfl

/-! ## What a shared operation can answer -/

theorem complete_eq_next_iff {r : Option Result} {s t : State} :
    complete r s = .next t ↔ { s with response := some (.ok r) } = t := by simp [complete]

theorem raise_eq_next_iff {e : Error} {s t : State} :
    raise e s = .next t ↔ { s with response := some (.err e) } = t := by simp [raise]

@[simp] theorem withContext_none {s : State} (h : s.ctx = none) (k : Context → Host.Outcome State Fault Refusal) :
    withContext s k = raise .noEngine s := by simp [withContext, h]

@[simp] theorem withContext_some {s : State} {c : Context} (h : s.ctx = some c)
    (k : Context → Host.Outcome State Fault Refusal) : withContext s k = k c := by simp [withContext, h]

/-- A command that uses the context answers `NoEngine` or goes on with the context it holds. -/
theorem withContext_cases (s : State) (k : Context → Host.Outcome State Fault Refusal) :
    (s.ctx = none ∧ withContext s k = raise .noEngine s) ∨ ∃ c, s.ctx = some c ∧ withContext s k = k c := by
  cases h : s.ctx with
  | none => exact .inl ⟨rfl, withContext_none h k⟩
  | some c => exact .inr ⟨c, rfl, withContext_some h k⟩

/-- A one-shot command or `CFG` answers the validator's error or goes on with its engine. -/
theorem withEngine_cases (v : Except Error Engine) (s : State) (k : Engine → Host.Outcome State Fault Refusal) :
    (∃ e, v = .error e ∧ withEngine v s k = raise e s) ∨ ∃ e, v = .ok e ∧ withEngine v s k = k e := by
  cases v with
  | error e => exact .inl ⟨e, rfl, rfl⟩
  | ok e => exact .inr ⟨e, rfl, rfl⟩

theorem answerBound_nonpos {t : Triple} (h : t.W ≤ 0) (r : Result) (s : State) :
    answerBound t r s = raise .invalidFormat s := by simp [answerBound, h]

theorem answerBound_pos {t : Triple} (h : 1 ≤ t.W) (r : Result) (s : State) :
    answerBound t r s = complete (some r) s := by
  have : ¬ t.W ≤ 0 := by omega
  simp [answerBound, this]

end Sys2Proof.Machine
end

