-- ==== Sys2Proof/Laws/Memory.lean ====
section
/-! SUPPORT. The laws of memory: read after write, the other buffers, the canonical form, and what the in-place loop
leaves. -/
namespace Sys2Proof.Machine

theorem buffer_cons_self (b : BufferId) (xs : List Sample) (m : Memory) :
    Memory.buffer ((b, xs) :: m) b = xs := by simp [Memory.buffer]

theorem buffer_cons_ne {b c : BufferId} (h : c ≠ b) (xs : List Sample) (m : Memory) :
    Memory.buffer ((c, xs) :: m) b = Memory.buffer m b := by simp [Memory.buffer, h]

/-- A buffer whose name lies below every listed one is empty. -/
theorem buffer_eq_nil_of_lt {b : BufferId} {m : Memory} (h : ∀ p ∈ m, b < p.1) : Memory.buffer m b = [] := by
  induction m with
  | nil => rfl
  | cons p m ih =>
    have hp : p.1 ≠ b := (h p (by simp)).ne'
    rw [show p = (p.1, p.2) from rfl, buffer_cons_ne hp]
    exact ih fun q hq => h q (by simp [hq])

/-- Storing leaves every other buffer alone. -/
theorem buffer_store_ne {b c : BufferId} (h : c ≠ b) (xs : List Sample) (m : Memory) :
    (m.store b xs).buffer c = m.buffer c := by
  induction m with
  | nil => by_cases hx : xs = [] <;> simp [Memory.store, Memory.buffer, hx, Ne.symm h]
  | cons p m ih =>
    obtain ⟨d, ys⟩ := p
    simp only [Memory.store]
    split_ifs with h1 h2 h3 h4
    · simp [Memory.buffer, ih]
    · subst h2; rw [buffer_cons_ne (Ne.symm h)]
    · subst h2; rw [buffer_cons_ne (Ne.symm h), buffer_cons_ne (Ne.symm h)]
    · rfl
    · rw [buffer_cons_ne (Ne.symm h)]

/-- Reading a buffer after storing a non-empty list gives that list. -/
theorem buffer_store_self {xs : List Sample} (hx : xs ≠ []) (b : BufferId) (m : Memory) :
    (m.store b xs).buffer b = xs := by
  induction m with
  | nil => simp [Memory.store, Memory.buffer, hx]
  | cons p m ih =>
    obtain ⟨d, ys⟩ := p
    simp only [Memory.store, hx, if_false]
    split_ifs with h1 h2
    · rw [buffer_cons_ne (Nat.ne_of_lt h1), ih]
    · exact buffer_cons_self ..
    · exact buffer_cons_self ..

/-- In canonical memory this holds of the empty list too. -/
theorem buffer_store_self_of_wf {m : Memory} (h : m.wf) (b : BufferId) (xs : List Sample) :
    (m.store b xs).buffer b = xs := by
  by_cases hx : xs = []
  · subst hx
    induction m with
    | nil => simp [Memory.store, Memory.buffer]
    | cons p m ih =>
      obtain ⟨d, ys⟩ := p
      obtain ⟨hp, hn⟩ := h
      rw [List.pairwise_cons] at hp
      have htail : Memory.wf m := ⟨hp.2, fun q hq => hn q (by simp [hq])⟩
      simp only [Memory.store, if_true]
      split_ifs with h1 h2
      · rw [buffer_cons_ne (Nat.ne_of_lt h1), ih htail]
      · subst h2; exact buffer_eq_nil_of_lt hp.1
      · have hlt : b < d := lt_of_le_of_ne (not_lt.mp h1) (Ne.symm h2)
        refine buffer_eq_nil_of_lt fun q hq => ?_
        rcases List.mem_cons.mp hq with rfl | hq
        · exact hlt
        · exact hlt.trans (hp.1 q hq)
  · exact buffer_store_self hx b m

/-- Every name in stored memory was there or is the one stored to. -/
theorem mem_store {b : BufferId} {xs : List Sample} {m : Memory} {p : BufferId × List Sample}
    (h : p ∈ m.store b xs) : p ∈ m ∨ (p = (b, xs) ∧ xs ≠ []) := by
  induction m with
  | nil => by_cases hx : xs = [] <;> simp_all [Memory.store]
  | cons q m ih =>
    obtain ⟨d, ys⟩ := q
    simp only [Memory.store] at h
    split_ifs at h with h1 h2 h3 h4
    · rcases List.mem_cons.mp h with rfl | h
      · simp
      · exact (ih h).imp_left fun hm => by simp [hm]
    · exact .inl (by simp [h])
    · rcases List.mem_cons.mp h with rfl | h
      · exact .inr ⟨rfl, h3⟩
      · exact .inl (by simp [h])
    · exact .inl h
    · rcases List.mem_cons.mp h with rfl | h
      · exact .inr ⟨rfl, h4⟩
      · exact .inl h

/-- Storing keeps the canonical form. -/
theorem store_wf {m : Memory} (h : m.wf) (b : BufferId) (xs : List Sample) : (m.store b xs).wf := by
  constructor
  · obtain ⟨hp, -⟩ := h
    induction m with
    | nil => by_cases hx : xs = [] <;> simp [Memory.store, hx]
    | cons q m ih =>
      obtain ⟨d, ys⟩ := q
      rw [List.pairwise_cons] at hp
      simp only [Memory.store]
      split_ifs with h1 h2 h3 h4
      · refine List.pairwise_cons.mpr ⟨fun p hm => ?_, ih hp.2⟩
        rcases mem_store hm with hm | ⟨rfl, -⟩
        · exact hp.1 p hm
        · exact h1
      · exact hp.2
      · subst h2; exact List.pairwise_cons.mpr hp
      · exact List.pairwise_cons.mpr hp
      · have hlt : b < d := lt_of_le_of_ne (not_lt.mp h1) (Ne.symm h2)
        refine List.pairwise_cons.mpr ⟨fun p hm => ?_, List.pairwise_cons.mpr hp⟩
        rcases List.mem_cons.mp hm with rfl | hm
        · exact hlt
        · exact hlt.trans (hp.1 p hm)
  · intro p hm
    rcases mem_store hm with hm | ⟨rfl, hx⟩
    · exact h.2 p hm
    · exact hx

/-- Of two stores to one buffer the second counts. -/
theorem store_store {xs : List Sample} (hx : xs ≠ []) (b : BufferId) (ys : List Sample) (m : Memory) :
    (m.store b xs).store b ys = if ys = [] then (m.store b xs).store b [] else m.store b ys := by
  by_cases hy : ys = []
  · simp [hy]
  rw [if_neg hy]
  induction m with
  | nil => simp [Memory.store, hx, hy]
  | cons q m ih =>
    obtain ⟨d, zs⟩ := q
    by_cases h1 : d < b
    · simp [Memory.store, h1, ih]
    · by_cases h2 : d = b <;> simp [Memory.store, h1, h2, hx, hy]

/-- What one element write does: it succeeds exactly inside the buffer. -/
theorem memWrite_eq_some_iff {m m' : Memory} {b : BufferId} {i : Nat} {v : Sample} :
    memWrite m b i v = some m' ↔ i < (m.buffer b).length ∧ m.store b ((m.buffer b).set i v) = m' := by
  simp only [memWrite]; split_ifs with h <;> simp [h]

/-- What the loop leaves when it runs to the end of the buffer: the elements before `i` as they were, the
rest rewritten. -/
theorem rewriteFrom_spec (f : Sample → Sample) (b : BufferId) :
    ∀ (k i : Nat) (m : Memory), i + k = (m.buffer b).length →
      rewriteFrom f b i k m =
        some (if k = 0 then m else m.store b ((m.buffer b).take i ++ ((m.buffer b).drop i).map f)) := by
  intro k
  induction k with
  | zero => intro i m _; simp [rewriteFrom]
  | succ k ih =>
    intro i m hk
    have hi : i < (m.buffer b).length := by omega
    set xs := m.buffer b with hxs
    have hne : xs.set i (f xs[i]) ≠ [] := by
      intro h0; have := congrArg List.length h0; simp at this; simp [this] at hi
    have hbuf : (m.store b (xs.set i (f xs[i]))).buffer b = xs.set i (f xs[i]) := buffer_store_self hne b m
    have hread : memRead m b i = some xs[i] := by simp [memRead, ← hxs, hi]
    have hwrite : memWrite m b i (f xs[i]) = some (m.store b (xs.set i (f xs[i]))) := by
      simp [memWrite, ← hxs, hi]
    simp only [rewriteFrom, hread, hwrite]
    rw [ih (i + 1) _ (by rw [hbuf, List.length_set]; omega), hbuf]
    have hstep : xs.take i ++ (xs.drop i).map f =
        (xs.set i (f xs[i])).take (i + 1) ++ ((xs.set i (f xs[i])).drop (i + 1)).map f := by
      rw [List.drop_eq_getElem_cons hi, List.map_cons, List.drop_set_of_lt (by omega), List.take_set,
        List.take_succ_eq_append_getElem hi, List.set_append_right _ _ (by simp)]
      simp [Nat.min_eq_left hi.le]
    rw [hstep]
    by_cases hk0 : k = 0
    · subst hk0
      have hlen : i + 1 = xs.length := by omega
      have hd : (xs.set i (f xs[i])).drop (i + 1) = [] := List.drop_eq_nil_of_le (by simp; omega)
      have ht : (xs.set i (f xs[i])).take (i + 1) = xs.set i (f xs[i]) := List.take_of_length_le (by simp; omega)
      simp [hd, ht]
    · have hne2 : (xs.set i (f xs[i])).take (i + 1) ++ ((xs.set i (f xs[i])).drop (i + 1)).map f ≠ [] := by
        intro h0; have := congrArg List.length h0; simp at this; omega
      simp only [hk0, if_false, Nat.succ_ne_zero]
      rw [store_store hne, if_neg hne2]

/-- The in-place loop always runs to its end; an empty buffer is not accessed, any other is stored with
every element rewritten. -/
theorem rewriteBuffer_spec (f : Sample → Sample) (b : BufferId) (m : Memory) :
    rewriteBuffer f b m = some (if m.buffer b = [] then m else m.store b ((m.buffer b).map f)) := by
  rw [rewriteBuffer, rewriteFrom_spec f b _ 0 m (by simp)]
  simp [List.length_eq_zero_iff]

/-- The in-place loop keeps the canonical form. -/
theorem rewriteBuffer_wf {f : Sample → Sample} {b : BufferId} {m m' : Memory} (h : m.wf)
    (hr : rewriteBuffer f b m = some m') : m'.wf := by
  rw [rewriteBuffer_spec] at hr
  obtain rfl := Option.some.inj hr
  split_ifs
  · exact h
  · exact store_wf h b _

/-- One element write keeps the canonical form. -/
theorem memWrite_wf {m m' : Memory} {b : BufferId} {i : Nat} {v : Sample} (h : m.wf)
    (hw : memWrite m b i v = some m') : m'.wf := by
  obtain ⟨-, rfl⟩ := memWrite_eq_some_iff.mp hw
  exact store_wf h b _

/-- The memory of the reset state is canonical. -/
theorem reset_mem_wf : State.reset.mem.wf := by decide

end Sys2Proof.Machine
end

