-- ==== Sys2Proof/Laws/Numbers.lean ====
section
/-! SUPPORT. The primitives in the library's terms, so that no proof unfolds them. -/
namespace Sys2Proof.Machine

/-- `pow2` is the power of two with an integer exponent. -/
theorem pow2_eq_zpow (n : Int) : pow2 n = (2 : ℚ) ^ n := by
  cases n with
  | ofNat n => simp [pow2]
  | negSucc n => simp [pow2, zpow_negSucc]

theorem pow2_pos (n : Int) : 0 < pow2 n := by rw [pow2_eq_zpow]; positivity

theorem pow2_ne_zero (n : Int) : pow2 n ≠ 0 := (pow2_pos n).ne'

theorem pow2_neg (n : Int) : pow2 (-n) = (pow2 n)⁻¹ := by simp [pow2_eq_zpow, zpow_neg]

theorem precision_eq_inv (F : Int) : precision F = (pow2 F)⁻¹ := pow2_neg F

theorem modulus_pos (W : Int) : 0 < modulus W := by unfold modulus; positivity

/-- The largest signed code and the modulus, for a width of `w + 1`. -/
theorem maxInt_true (w : Nat) : maxInt true (w + 1) = 2 ^ w - 1 := by simp [maxInt]
theorem minInt_true (w : Nat) : minInt true (w + 1) = -2 ^ w := by simp [minInt]
theorem minInt_false (W : Int) : minInt false W = 0 := by simp [minInt]
theorem maxInt_false (W : Int) : maxInt false W = modulus W - 1 := by simp [maxInt, modulus]

theorem modulus_succ (w : Nat) : modulus (w + 1) = 2 * 2 ^ w := by
  have : ((w : Int) + 1).toNat = w + 1 := by omega
  simp [modulus, this, pow_succ, mul_comm]

/-- What `floor` answers. -/
theorem floorQ_eq_iff {v : ℚ} {z : Int} : floorQ v = z ↔ (z : ℚ) ≤ v ∧ v < z + 1 := Int.floor_eq_iff

/-- What `ceil` answers. -/
theorem ceilQ_eq_iff {v : ℚ} {z : Int} : ceilQ v = z ↔ (z : ℚ) - 1 < v ∧ v ≤ z := Int.ceil_eq_iff

theorem floorQ_le (v : ℚ) : (floorQ v : ℚ) ≤ v := Int.floor_le v
theorem lt_floorQ_add_one (v : ℚ) : v < floorQ v + 1 := Int.lt_floor_add_one v

/-- What the floored modulo answers: in `[0, m)`, and `v` less a multiple of `m`. -/
theorem fmod_spec {m : Int} (hm : 0 < m) (v : ℚ) :
    0 ≤ fmod v m ∧ fmod v m < m ∧ ∃ k : Int, fmod v m = v - m * k := by
  have hm' : (0 : ℚ) < m := by exact_mod_cast hm
  have h1 := floorQ_le (v / m)
  have h2 := lt_floorQ_add_one (v / m)
  rw [le_div_iff₀ hm'] at h1
  rw [div_lt_iff₀ hm'] at h2
  refine ⟨?_, ?_, floorQ (v / m), rfl⟩ <;> unfold fmod <;> nlinarith

/-- What `clamp` answers. -/
theorem clamp_mem {v : ℚ} {lo hi : Int} (h : lo ≤ hi) : (lo : ℚ) ≤ clamp v lo hi ∧ clamp v lo hi ≤ hi := by
  have h' : (lo : ℚ) ≤ hi := by exact_mod_cast h
  unfold clamp; split_ifs <;> constructor <;> linarith

end Sys2Proof.Machine
end

