-- ==== Sys2Proof/Laws/PerInstr.lean ====
section
/-! SUPPORT. A family of statements made once for each command: the encoder follows the opcode table's row. -/
namespace Sys2Proof.Laws.TableRow

/-- The mask and match of a command's row in spec/opcode_table.json, and whether the row has a bundle and a
sample operand. -/
def row : Instr → Nat × Nat × Bool × Bool
  | .cfg _ => (0xFF, 0x10, true, false)
  | .tosc _ => (0xFF, 0x20, false, true)
  | .touc _ => (0xFF, 0x30, false, true)
  | .tobs _ => (0xFF, 0x40, false, true)
  | .q _ => (0xFF, 0x50, false, true)
  | .qs _ => (0xFF, 0x60, false, true)
  | .desc _ => (0xFE, 0x70, false, false)
  | .q1 _ _ => (0xFF, 0x80, true, true)
  | .qs1 _ _ => (0xFF, 0x90, true, true)
  | .bndMinInt _ => (0xFF, 0xA0, true, false)
  | .bndMaxInt _ => (0xFF, 0xA1, true, false)
  | .bndRangeInt _ => (0xFF, 0xA2, true, false)
  | .bndMinVal _ => (0xFF, 0xA3, true, false)
  | .bndMaxVal _ => (0xFF, 0xA4, true, false)
  | .bndPrec _ => (0xFF, 0xA5, true, false)

/-- The encoded byte matches its row, and the operands presented are the row's. -/
def Statement (i : Instr) : Prop :=
  (encode i).cmd.toNat &&& (row i).1 = (row i).2.1 ∧
    (encode i).bundle.isSome = (row i).2.2.1 ∧ (encode i).sample.isSome = (row i).2.2.2

theorem cfg (b : Bundle) : Statement (.cfg b) := by
  simp [Statement, row, encode, Instr.byte, Instr.bundle?, Instr.sample?]
theorem tosc (x : SampleOperand) : Statement (.tosc x) := by
  simp [Statement, row, encode, Instr.byte, Instr.bundle?, Instr.sample?]
theorem touc (x : SampleOperand) : Statement (.touc x) := by
  simp [Statement, row, encode, Instr.byte, Instr.bundle?, Instr.sample?]
theorem tobs (x : SampleOperand) : Statement (.tobs x) := by
  simp [Statement, row, encode, Instr.byte, Instr.bundle?, Instr.sample?]
theorem q (x : SampleOperand) : Statement (.q x) := by
  simp [Statement, row, encode, Instr.byte, Instr.bundle?, Instr.sample?]
theorem qs (x : SampleOperand) : Statement (.qs x) := by
  simp [Statement, row, encode, Instr.byte, Instr.bundle?, Instr.sample?]
theorem desc (v : Bool) : Statement (.desc v) := by
  cases v <;> simp [Statement, row, encode, Instr.byte, Instr.bundle?, Instr.sample?]
theorem q1 (x : SampleOperand) (b : Bundle) : Statement (.q1 x b) := by
  simp [Statement, row, encode, Instr.byte, Instr.bundle?, Instr.sample?]
theorem qs1 (x : SampleOperand) (b : Bundle) : Statement (.qs1 x b) := by
  simp [Statement, row, encode, Instr.byte, Instr.bundle?, Instr.sample?]
theorem bndMinInt (t : Triple) : Statement (.bndMinInt t) := by
  simp [Statement, row, encode, Instr.byte, Instr.bundle?, Instr.sample?]
theorem bndMaxInt (t : Triple) : Statement (.bndMaxInt t) := by
  simp [Statement, row, encode, Instr.byte, Instr.bundle?, Instr.sample?]
theorem bndRangeInt (t : Triple) : Statement (.bndRangeInt t) := by
  simp [Statement, row, encode, Instr.byte, Instr.bundle?, Instr.sample?]
theorem bndMinVal (t : Triple) : Statement (.bndMinVal t) := by
  simp [Statement, row, encode, Instr.byte, Instr.bundle?, Instr.sample?]
theorem bndMaxVal (t : Triple) : Statement (.bndMaxVal t) := by
  simp [Statement, row, encode, Instr.byte, Instr.bundle?, Instr.sample?]
theorem bndPrec (t : Triple) : Statement (.bndPrec t) := by
  simp [Statement, row, encode, Instr.byte, Instr.bundle?, Instr.sample?]

end Sys2Proof.Laws.TableRow
end

