-- ==== Sys2Proof/Tests/Slice0.lean ====
section
/-! SUPPORT. The model's own tests: well-formedness, decoding from written-out words, single steps with results taken
from spec/95_test_vectors.md, and for each obligation with hypotheses a witness that meets them. -/
namespace Sys2Proof.Tests
open Sys2Proof.Machine

-- Each test waits for the kernel: one after another they need one thread, at once they would need one each.
set_option Elab.async false

/-! ## Helpers -/

/-- A state that holds an engine and one buffer, number 7. -/
def holding (e : Engine) (xs : List Sample) : State :=
  { ctx := some (contextOf e), mem := if xs = [] then [] else [(7, xs)], input := [], response := none }

/-- The state after reset with one buffer, number 7. -/
def noEngineWith (xs : List Sample) : State := { State.reset with mem := [(7, xs)] }

/-- What a command answers. -/
def answer (i : Instr) (s : State) : Option Response :=
  match exec i s with
  | .next t => t.response
  | .fault _ => none
  | .refused _ => none

/-- The context and the memory a command leaves. -/
def leaves (i : Instr) (s : State) : Option (Option Context × Memory) :=
  match exec i s with
  | .next t => some (t.ctx, t.mem)
  | .fault _ => none
  | .refused _ => none

/-- What a presented command answers through one step. -/
def stepAnswer (c : Command) (s : State) : Option Response :=
  match step (presentNext c s) with
  | .next t => t.response
  | .fault _ => none
  | .refused _ => none

/-- What a named command answers through one step. -/
def namedAnswer (n : NamedCommand) (s : State) : Option Response :=
  match step { s with input := [.named n] } with
  | .next t => t.response
  | .fault _ => none
  | .refused _ => none

/-- Unsigned, 6 bits, 2 fraction bits (scenarios 8.5 and 8.6). -/
def e062 (o : OverflowPolicy) : Engine := { S := false, W := 6, F := 2, OVF := o, RND := .truncate }

/-- Signed, 8 bits, 4 fraction bits. -/
def e184 (o : OverflowPolicy) (r : RoundingPolicy) : Engine := { S := true, W := 8, F := 4, OVF := o, RND := r }

/-- Signed, 3 bits, -1 fraction bits (scenario 8.7). -/
def e13m1 : Engine := { S := true, W := 3, F := -1, OVF := .wrap, RND := .truncate }

/-- The samples of scenarios 8.5 and 8.6. -/
def samples : List Sample := [123 / 100, -12 / 10, 341 / 10, 0, 326 / 100, 1, -234 / 100]

/-- A bundle of the ports. -/
def bundle : Bundle := ⟨⟨true, 3, -1⟩, 1#2, 4#3⟩

/-- A command with both operands presented. -/
def present (cmd : Byte) (kind : BitVec 2) : Command :=
  { cmd := cmd, bundle := some bundle, sample := some { kind := kind, payload := ⟨5 / 2, [1, -1], 7⟩ } }

/-! ## Well-formedness -/

theorem test_wellFormed_accepts : (Instr.cfg ⟨⟨true, 127, -128⟩, 3#2, 7#3⟩).wellFormed 8 = true := by decide
theorem test_wellFormed_refuses_W : (Instr.cfg ⟨⟨true, 128, 0⟩, 0#2, 0#3⟩).wellFormed 8 = false := by decide
theorem test_wellFormed_refuses_F : (Instr.bndPrec ⟨true, 1, -129⟩).wellFormed 8 = false := by decide
theorem test_wellFormed_refuses_q1 : (Instr.q1 (.scalar 0) ⟨⟨true, -129, 0⟩, 0#2, 0#3⟩).wellFormed 8 = false := by
  decide
theorem test_promisesWidth_refuses :
    Config.promisesWidth { cfgIntBits := 32, wMax := some 64 } 65 = false ∧
    Config.promisesWidth { cfgIntBits := 32, wMax := some 64 } 64 = true ∧
    Config.promisesWidth Config.suggested 65 = true := by decide

/-! ## Decoding, each byte written as `op` and `sub` (30_encoding.md R56 to R58) -/

theorem test_decode_cfg : decode (present 0b00010000#8 0#2) = .ok (.cfg bundle) := by decide +kernel
theorem test_decode_tosc : decode (present 0b00100000#8 0#2) = .ok (.tosc (.scalar (5 / 2))) := by decide +kernel
theorem test_decode_touc : decode (present 0b00110000#8 1#2) = .ok (.touc (.seqRO [1, -1])) := by decide +kernel
theorem test_decode_tobs : decode (present 0b01000000#8 2#2) = .ok (.tobs (.seqRW 7)) := by decide +kernel
theorem test_decode_q : decode (present 0b01010000#8 0#2) = .ok (.q (.scalar (5 / 2))) := by decide +kernel
theorem test_decode_qs : decode (present 0b01100000#8 2#2) = .ok (.qs (.seqRW 7)) := by decide +kernel
theorem test_decode_desc : decode (present 0b01110000#8 0#2) = .ok (.desc false) := by decide +kernel
theorem test_decode_desc_verbose : decode (present 0b01110001#8 0#2) = .ok (.desc true) := by decide +kernel
theorem test_decode_q1 : decode (present 0b10000000#8 1#2) = .ok (.q1 (.seqRO [1, -1]) bundle) := by decide +kernel
theorem test_decode_qs1 : decode (present 0b10010000#8 2#2) = .ok (.qs1 (.seqRW 7) bundle) := by decide +kernel
theorem test_decode_bndMinInt : decode (present 0b10100000#8 0#2) = .ok (.bndMinInt ⟨true, 3, -1⟩) := by
  decide +kernel
theorem test_decode_bndMaxInt : decode (present 0b10100001#8 0#2) = .ok (.bndMaxInt ⟨true, 3, -1⟩) := by
  decide +kernel
theorem test_decode_bndRangeInt : decode (present 0b10100010#8 0#2) = .ok (.bndRangeInt ⟨true, 3, -1⟩) := by
  decide +kernel
theorem test_decode_bndMinVal : decode (present 0b10100011#8 0#2) = .ok (.bndMinVal ⟨true, 3, -1⟩) := by
  decide +kernel
theorem test_decode_bndMaxVal : decode (present 0b10100100#8 0#2) = .ok (.bndMaxVal ⟨true, 3, -1⟩) := by
  decide +kernel
theorem test_decode_bndPrec : decode (present 0b10100101#8 0#2) = .ok (.bndPrec ⟨true, 3, -1⟩) := by decide +kernel

/-- The illegal bytes of spec/95_test_vectors.md section 2.8. -/
theorem test_decode_illegal_bytes :
    ([0x00#8, 0xB0#8, 0xC0#8, 0xD0#8, 0xE0#8, 0xF0#8, 0xFF#8, 0x21#8, 0x58#8, 0x6F#8, 0x11#8, 0x81#8, 0x9A#8,
      0x72#8, 0x73#8, 0x78#8, 0xA6#8, 0xA7#8, 0xA8#8, 0xAF#8].all fun c =>
        match decode (present c 0#2) with
        | .ok _ => false
        | .error _ => true) = true := by decide +kernel

theorem test_decode_reserved_kind : decode (present 0x20#8 3#2) = .error .reservedKind := by decide +kernel
theorem test_decode_kind_ignored_without_sample : decode (present 0x10#8 3#2) = .ok (.cfg bundle) := by decide +kernel
theorem test_decode_missing_bundle : decode { present 0x10#8 0#2 with bundle := none } = .error .missingBundle := by
  decide +kernel
theorem test_decode_missing_sample : decode { present 0x80#8 0#2 with sample := none } = .error .missingSample := by
  decide +kernel

/-- Ports of 32 bits: `W` and `F` are two's complement (30_encoding.md R59). -/
theorem test_decode_port :
    decodeWires { cmd := 0x10#8, cfg := some { S := 1#1, W := 0xFFFFFFFF#32, F := 0x80000000#32, ovf := 2#2, rnd := 3#3 },
                  sample := none } = .ok (.cfg ⟨⟨true, -1, -2147483648⟩, 2#2, 3#3⟩) := by decide +kernel

theorem test_table_word : decodeTableWord 8 0xA2 = some (.bndRangeInt ⟨false, 0, 0⟩) := by decide +kernel

/-! ## The units (spec/95_test_vectors.md sections 2.3 and 2.4) -/

/-- The sharpest check of the modulus: an in-range negative value passes unchanged. -/
theorem test_wrap_modulus : ovf ⟨true, 3, 0, .wrap, .truncate⟩ (-1) = -1 := by decide +kernel
theorem test_wrap_strict_above_max :
    ovf (e184 .wrap .truncate) (127 / 16) = 127 ∧ ovf (e184 .wrap .truncate) (255 / 32) = -257 / 2 := by decide +kernel
theorem test_wrap_unsigned_negative : ovf ⟨false, 3, -2, .wrap, .truncate⟩ (-1) = 31 / 4 := by decide +kernel
theorem test_saturate_keeps_fraction : ovf (e184 .saturate .truncate) (-12 / 10) = -96 / 5 := by decide +kernel
theorem test_roundings_half_negative :
    rnd .truncate (-3 / 2) = -2 ∧ rnd .nearestAwayFromZero (-3 / 2) = -2 ∧ rnd .floor (-3 / 2) = -2 ∧
    rnd .ceil (-3 / 2) = -1 ∧ rnd .towardZero (-3 / 2) = -1 := by decide +kernel
theorem test_signed_codes_by_policy :
    sc (e184 .wrap .truncate) (798 / 100) = -129 ∧ sc (e184 .wrap .nearestAwayFromZero) (798 / 100) = -128 ∧
    sc (e184 .wrap .ceil) (-12 / 10) = -19 ∧ sc (e184 .saturate .nearestAwayFromZero) (-1 / 32) = -1 := by decide +kernel

/-! ## One step for each command (spec/95_test_vectors.md sections 1, 2.1, 2.2, 2.6, 2.7, 2.8) -/

/-- Section 2.2: a bundle replaces the engine that was there, whole. -/
theorem test_cfg_replaces :
    leaves (.cfg ⟨⟨true, 8, 4⟩, 1#2, 1#3⟩) (holding (e062 .wrap) []) =
      some (some ⟨e184 .saturate .nearestAwayFromZero, ⟨-128, 127, 255, -8, 127 / 16, 1 / 16⟩⟩, []) := by decide +kernel
/-- Section 2.2: the width is checked before the policies. -/
theorem test_cfg_width_first :
    answer (.cfg ⟨⟨false, 0, 2⟩, 3#2, 7#3⟩) State.reset = some (.err .invalidFormat) := by decide +kernel

/-- Section 2.6. -/
theorem test_tosc_out_of_range :
    answer (.tosc (.scalar (795 / 100))) (holding (e184 .wrap .truncate) []) =
      some (.ok (some (.codes (.scalar (-129))))) := by decide +kernel
/-- Section 2.7: the empty sequence is legal. -/
theorem test_tosc_empty :
    answer (.tosc (.seqRO [])) (holding (e184 .wrap .truncate) []) = some (.ok (some (.codes (.seq [])))) := by
  decide +kernel

/-- Section 1.4: each element is mapped on its own. -/
theorem test_touc_elementwise :
    answer (.touc (.seqRO [-1, 1])) (holding (e184 .wrap .truncate) []) =
      some (.ok (some (.codes (.seq [240, 16])))) := by decide +kernel
/-- Section 2.6: the unsigned code `2^W`. -/
theorem test_touc_modulus :
    answer (.touc (.scalar (159 / 10))) (holding { e062 .wrap with RND := .ceil } []) =
      some (.ok (some (.codes (.scalar 64)))) := by decide +kernel

/-- Section 1.1, the document's figures. -/
theorem test_tobs_scenario :
    answer (.tobs (.seqRO samples)) (holding (e062 .wrap) []) =
      some (.ok (some (.bitStrings (.seq (["000100", "111011", "001000", "000000", "001101", "000100", "110110"].map
        String.toList))))) := by decide +kernel
/-- Section 2.6: the unsigned code `2^W` is written as `W` zeros. -/
theorem test_tobs_modulus :
    answer (.tobs (.scalar (159 / 10))) (holding { e062 .wrap with RND := .ceil } []) =
      some (.ok (some (.bitStrings (.scalar "000000".toList)))) := by decide +kernel

/-- Section 1.1, the document's figures. -/
theorem test_q_scenario :
    answer (.q (.seqRO samples)) (holding (e062 .wrap) []) =
      some (.ok (some (.values (.seq [1, 59 / 4, 2, 0, 13 / 4, 1, 27 / 2])))) := by decide +kernel
/-- Section 2.7: `Q` on a writable buffer leaves it. -/
theorem test_q_leaves_buffer :
    (leaves (.q (.seqRW 7)) (holding (e184 .wrap .truncate) [-12 / 10, 100])).map Prod.snd =
      some [(7, [-12 / 10, 100])] := by decide +kernel

/-- Section 1.2, the document's figures. -/
theorem test_qs_scenario :
    (leaves (.qs (.seqRW 7)) (holding (e062 .saturate) samples)).map Prod.snd =
      some [(7, [1, 0, 63 / 4, 0, 13 / 4, 1, 0])] := by decide +kernel
/-- Section 2.8: `NoEngine` comes before `TypeMismatch`. -/
theorem test_qs_noEngine_first : answer (.qs (.scalar 1)) State.reset = some (.err .noEngine) := by decide +kernel

/-- Section 2.7: `Floor` is reported as configured. -/
theorem test_desc_floor :
    answer (.desc false) (holding ⟨true, 1, 0, .wrap, .floor⟩ []) =
      some (.ok (some (.record ⟨true, 1, 0, .wrap, .floor⟩ none))) := by decide +kernel
/-- Section 2.7. -/
theorem test_desc_verbose :
    answer (.desc true) (holding e13m1 []) =
      some (.ok (some (.record e13m1 (some ⟨-4, 3, 7, -8, 6, 2⟩)))) := by decide +kernel

/-- Section 1.3, the document's figure; no engine is needed. -/
theorem test_q1_scenario :
    answer (.q1 (.scalar (31415926 / 10000000)) ⟨⟨true, 3, -1⟩, 0#2, 0#3⟩) State.reset =
      some (.ok (some (.values (.scalar 2)))) := by decide +kernel
/-- Section 2.7. -/
theorem test_q1_invalidPolicy :
    answer (.q1 (.scalar 1) ⟨⟨true, 8, 4⟩, 0#2, 6#3⟩) State.reset = some (.err .invalidPolicy) := by decide +kernel

/-- Section 3.2, command 8: the context stays. -/
theorem test_qs1_program :
    leaves (.qs1 (.seqRW 7) ⟨⟨true, 3, -1⟩, 0#2, 0#3⟩) (holding (e062 .saturate) [1, 0, 63 / 4, 0, 13 / 4, 1, 0]) =
      some (some (contextOf (e062 .saturate)), [(7, [0, 0, -2, 0, 2, 0, 0])]) := by decide +kernel
/-- Section 2.7: construction comes before the operand's kind. -/
theorem test_qs1_policy_before_kind :
    answer (.qs1 (.seqRO [1]) ⟨⟨false, 6, 2⟩, 3#2, 0#3⟩) State.reset = some (.err .invalidPolicy) := by decide +kernel

theorem test_bndMinInt : answer (.bndMinInt ⟨true, 8, 4⟩) State.reset = some (.ok (some (.integer (-128)))) := by
  decide +kernel
theorem test_bndMinInt_width : answer (.bndMinInt ⟨true, 0, 0⟩) State.reset = some (.err .invalidFormat) := by
  decide +kernel
theorem test_bndMaxInt : answer (.bndMaxInt ⟨true, 1, 0⟩) State.reset = some (.ok (some (.integer 0))) := by
  decide +kernel
theorem test_bndMaxInt_width : answer (.bndMaxInt ⟨false, -3, 2⟩) State.reset = some (.err .invalidFormat) := by
  decide +kernel
theorem test_bndRangeInt : answer (.bndRangeInt ⟨true, 8, 4⟩) State.reset = some (.ok (some (.integer 255))) := by
  decide +kernel
theorem test_bndMinVal : answer (.bndMinVal ⟨true, 8, -3⟩) State.reset = some (.ok (some (.rational (-1024)))) := by
  decide +kernel
/-- Section 2.1: `BND.*` ignores reserved policy codes. -/
theorem test_bndMinVal_ignores_policies :
    stepAnswer { present 0xA3#8 0#2 with bundle := some ⟨⟨true, 8, 4⟩, 3#2, 7#3⟩ } State.reset =
      some (.ok (some (.rational (-8)))) := by decide +kernel
theorem test_bndMaxVal : answer (.bndMaxVal ⟨true, 4, 6⟩) State.reset = some (.ok (some (.rational (7 / 64)))) := by
  decide +kernel
theorem test_bndPrec : answer (.bndPrec ⟨true, 3, -1⟩) State.reset = some (.ok (some (.rational 2))) := by
  decide +kernel
theorem test_bndPrec_width : answer (.bndPrec ⟨false, 0, 4⟩) State.reset = some (.err .invalidFormat) := by
  decide +kernel

/-- Section 2.8: `IllegalCommand` comes before `NoEngine`. -/
theorem test_illegal_first : stepAnswer (present 0x21#8 0#2) State.reset = some (.err .illegalCommand) := by
  decide +kernel

/-- Section 2.2, the name level: case is ignored, a rounding name is no overflow name. -/
theorem test_names_case :
    (namedAnswer (.construct ⟨false, 6, 2, some "wrap", some "TRUNCATE"⟩) State.reset,
      namedAnswer (.construct ⟨false, 6, 2, some "Truncate", none⟩) State.reset) =
      (some (.ok none), some (.err .invalidPolicy)) := by decide +kernel
theorem test_names_unknown :
    (namedAnswer (.construct ⟨false, 6, 2, some "Clip", none⟩) State.reset,
      namedAnswer (.construct ⟨false, 6, 2, some "Wrap", some ""⟩) State.reset) =
      (some (.err .invalidPolicy), some (.err .invalidPolicy)) := by decide +kernel

/-! ## Witnesses: for each obligation with hypotheses, inputs that meet them -/

/-- A state for a given input, with an engine and a buffer. -/
def fed (ev : HostEvent) : State := { holding (e062 .saturate) samples with input := [ev] }

/-- `W` and `F` at the two ends of a port of 4 bits. -/
theorem witness_DecodeEncodeAgreeOnPorts :
    (Instr.cfg ⟨⟨true, 7, -8⟩, 3#2, 7#3⟩).wellFormed 4 = true ∧
    (Instr.bndPrec ⟨false, -8, 7⟩).wellFormed 4 = true := by decide
theorem witness_DecodedCommandKeepsByteAndOperands :
    decode (present 0x90#8 2#2) = .ok (.qs1 (.seqRW 7) bundle) ∧ (Instr.qs1 (.seqRW 7) bundle).sample? = some (.seqRW 7) ∧
    (Instr.qs1 (.seqRW 7) bundle).bundle? = some bundle ∧ opField 0x90#8 ≠ 0xA#4 := by decide +kernel
/-- Each way to be illegal at the first byte or kind past the legal ones, and a reserved policy code of each field. -/
theorem witness_IllegalCommandsAreExactlyTheReservedOnes :
    (present 0xB0#8 0#2).bundle = some bundle ∧
    (present 0xB0#8 0#2).sample = some { kind := 0#2, payload := ⟨5 / 2, [1, -1], 7⟩ } ∧
    decode (present 0x0F#8 0#2) = .error .reservedOp ∧ decode (present 0xB0#8 0#2) = .error .reservedOp ∧
    decode (present 0xA6#8 0#2) = .error .reservedSel ∧ decode (present 0xA8#8 0#2) = .error .nonzeroSub ∧
    decode (present 0x72#8 0#2) = .error .nonzeroSub ∧ decode (present 0x11#8 0#2) = .error .nonzeroSub ∧
    decode (present 0x90#8 3#2) = .error .reservedKind ∧
    (1 ≤ (⟨⟨true, 1, 0⟩, 2#2, 0#3⟩ : Bundle).W ∧ 2 ≤ (2#2).toNat ∧ 5 ≤ (5#3).toNat ∧ (2#2) ≠ 3#2) := by decide +kernel
theorem witness_MissingOperandsAreIllegal :
    ({ present 0xA5#8 0#2 with bundle := none } : Command).bundle = none ∧ (0xA5#8).toNat / 16 ∈ [1, 8, 9, 10] ∧
    ({ present 0x20#8 0#2 with sample := none } : Command).sample = none ∧
    (0x20#8).toNat / 16 ∈ [2, 3, 4, 5, 6, 8, 9] := by decide +kernel
theorem witness_StepRunsTheDecodedCommand :
    (fed (.command (present 0x60#8 2#2))).input = [.command (present 0x60#8 2#2)] ∧
    decode (present 0x60#8 2#2) = .ok (.qs (.seqRW 7)) ∧ decode (present 0x00#8 0#2) = .error .reservedOp ∧
    encode (.desc false) = presentNamed (.describe none) := by decide +kernel
theorem witness_StepRunsTheTableWord : decodeTableWord 8 0x71 = some (.desc true) := by decide +kernel
/-- The widths 0, the largest refused, and -1. -/
theorem witness_IntegerBoundCommandsAnswer :
    (⟨true, 0, 0⟩ : Triple).W ≤ 0 ∧ (⟨false, -1, 3⟩ : Triple).W ≤ 0 := by decide
theorem witness_RationalBoundCommandsAnswer :
    (⟨true, 0, 0⟩ : Triple).W ≤ 0 ∧ (⟨false, -1, 3⟩ : Triple).W ≤ 0 := by decide
/-- The smallest width. -/
theorem witness_BoundsInvariantsHold : (1 : Int) ≤ (e062 .wrap).W ∧ (1 : Int) ≤ 1 := by decide
theorem witness_PolicyCodesAreTheTables :
    1 ≤ (⟨⟨true, 1, 0⟩, 2#2, 0#3⟩ : Bundle).W ∧ overflowOfCode 2#2 = none ∧ roundingOfCode 5#3 = none := by decide
/-- Each clause of `CFG`: the smallest width with the last codes of both tables, the width 0, the first reserved codes. -/
theorem witness_CfgWritesTheWholeContextOrNothing :
    1 ≤ (⟨⟨true, 1, 0⟩, 1#2, 4#3⟩ : Bundle).W ∧ overflowOfCode 1#2 = some .saturate ∧
    roundingOfCode 4#3 = some .towardZero ∧ (⟨⟨true, 0, 0⟩, 1#2, 4#3⟩ : Bundle).W ≤ 0 ∧
    ¬ ((2#2).toNat ≤ 1 ∧ (0#3).toNat ≤ 4) ∧ ¬ ((0#2).toNat ≤ 1 ∧ (5#3).toNat ≤ 4) := by decide
theorem witness_PolicyNamesMatchWholeAndCaseFree :
    1 ≤ (⟨false, 1, 2, some "Clip", some "Round"⟩ : NamedConfig).W ∧
    "Clip".toList.map Char.toLower ∉ ["wrap".toList, "saturate".toList] ∧
    "Round".toList.map Char.toLower ∉
      ["truncate".toList, "nearestawayfromzero".toList, "floor".toList, "ceil".toList, "towardzero".toList] := by
  decide +kernel
/-- The smallest width, each policy. -/
theorem witness_OverflowUnitFollowsItsSteps :
    1 ≤ (⟨true, 1, 0, .wrap, .floor⟩ : Engine).W ∧ 1 ≤ (e062 .saturate).W ∧ (e062 .saturate).OVF = .saturate := by decide
/-- Each clause, and a value outside the range just above `maxInt` of a signed format. -/
theorem witness_OverflowUnitRange :
    (e062 .wrap).OVF = .wrap ∧ (e062 .wrap).S = false ∧ (e184 .wrap .ceil).S = true ∧ (e062 .saturate).OVF = .saturate ∧
    1 ≤ (e184 .wrap .ceil).W ∧ (maxInt true 8 : ℚ) < residue 8 (scale 4 (795 / 100)) ∧
    residue 8 (scale 4 (795 / 100)) < (maxInt true 8 : ℚ) + 1 := by decide +kernel
/-- Both ends of the range, and a value less than one below it. -/
theorem witness_InRangeValuesPassUnchanged :
    1 ≤ (e184 .wrap .floor).W ∧ scale 4 (-8) = minInt true 8 ∧ scale 4 (127 / 16) = maxInt true 8 ∧
    (minInt true 8 : ℚ) - 1 < scale 4 (-803 / 100) ∧ scale 4 (-803 / 100) < minInt true 8 := by decide +kernel
theorem witness_RoundingPoliciesAreTheirFunctions :
    |(rnd .nearestAwayFromZero (5 / 2) : ℚ) - 5 / 2| = 1 / 2 ∧ (-1 : ℚ) < -1 / 2 ∧ (-1 / 2 : ℚ) < 0 := by decide +kernel
theorem witness_TruncateAndFloorConvertAlike :
    (Instr.qs (.seqRW 7)).usesContext = true ∧ Instr.qs (.seqRW 7) ≠ .desc true ∧ Instr.qs (.seqRW 7) ≠ .desc false ∧
    (holding (e062 .wrap) samples).ctx = some (contextOf (e062 .wrap)) := by decide +kernel
/-- Both ends of the range. -/
theorem witness_InRangeIntegersAreTheirOwnCode :
    1 ≤ (e184 .wrap .ceil).W ∧ scale 4 (-8) = ((-128 : Int) : ℚ) ∧ scale 4 (127 / 16) = ((127 : Int) : ℚ) ∧
    minInt true 8 = -128 ∧ maxInt true 8 = 127 := by decide +kernel
/-- An engine for each clause, and a sample that reaches each out-of-range code (95_test_vectors.md section 2.5). -/
theorem witness_SignedCodeRangeByPolicy :
    (e184 .saturate .ceil).OVF = .saturate ∧ (e062 .wrap).RND ∈ [RoundingPolicy.truncate, .floor, .towardZero] ∧
    sc { e062 .wrap with RND := .ceil } (158 / 10) = 64 ∧
    sc { e062 .wrap with RND := .nearestAwayFromZero } (127 / 8) = 64 ∧
    RoundingPolicy.towardZero ∈ [RoundingPolicy.ceil, .towardZero] ∧ sc (e184 .wrap .floor) (795 / 100) = -129 ∧
    sc (e184 .wrap .nearestAwayFromZero) (255 / 32) = -129 ∧ 1 ≤ (e062 .wrap).W ∧ 1 ≤ (e184 .wrap .floor).W := by
  decide +kernel
theorem witness_UnsignedCodeMappingAndRange :
    1 ≤ (e062 .wrap).W ∧ uc { e062 .wrap with RND := .ceil } (158 / 10) = 64 ∧
    uc { e062 .wrap with RND := .nearestAwayFromZero } (127 / 8) = 64 := by decide +kernel
/-- The lowest and highest bit of a text, and the code `2^W`. -/
theorem witness_BitStringIsTheNumeralOfWidthDigits :
    1 ≤ (e062 .wrap).W ∧ 0 < (e062 .wrap).W.toNat ∧ 5 < (e062 .wrap).W.toNat ∧
    uc { e062 .wrap with RND := .ceil } (158 / 10) = 2 ^ (e062 .wrap).W.toNat := by decide +kernel
/-- Both ends of the signed range. -/
theorem witness_BitStringIsTwosComplementInRange :
    1 ≤ (e184 .wrap .floor).W ∧ sc (e184 .wrap .floor) (-8) = minInt true 8 ∧
    sc (e184 .wrap .floor) (127 / 16) = maxInt true 8 := by decide +kernel
theorem witness_ResultPortsCarryEveryCode : 1 ≤ (⟨true, 1, 0, .wrap, .truncate⟩ : Engine).W := by decide
theorem witness_QuantizeIsIdempotentInRange :
    1 ≤ (e184 .wrap .floor).W ∧ minInt true 8 ≤ sc (e184 .wrap .floor) (-8) ∧
    sc (e184 .wrap .floor) (-8) ≤ maxInt true 8 ∧ (e062 .saturate).OVF = .saturate ∧ (e062 .wrap).S = false ∧
    (e062 .wrap).RND ∈ [RoundingPolicy.truncate, .floor, .towardZero] ∧ (e184 .wrap .ceil).S = true ∧
    (e184 .wrap .ceil).RND ∈ [RoundingPolicy.ceil, .towardZero] := by decide +kernel
theorem witness_SaturatedValuesStayWithinBounds : 1 ≤ (e062 .saturate).W ∧ (e062 .saturate).OVF = .saturate := by decide
theorem witness_CodeCommandsAnswerElementwise :
    (holding (e062 .wrap) samples).ctx = some (contextOf (e062 .wrap)) ∧
    (holding (e062 .wrap) samples).mem.buffer 7 = samples := by decide +kernel
theorem witness_TextAndValueCommandsAnswerElementwise :
    (holding (e062 .wrap) samples).ctx = some (contextOf (e062 .wrap)) ∧
    (holding (e062 .wrap) samples).mem.buffer 7 = samples := by decide +kernel
/-- With an engine, without one, and the state of the document's example. -/
theorem witness_QsQuantizesItsBufferInPlace :
    (holding (e062 .saturate) samples).ctx = some (contextOf (e062 .saturate)) ∧
    (contextOf (e062 .saturate)).toEngine = ⟨false, 6, 2, .saturate, .truncate⟩ ∧
    (holding (e062 .saturate) samples).mem.buffer 7 = [123 / 100, -12 / 10, 341 / 10, 0, 326 / 100, 1, -234 / 100] ∧
    (noEngineWith samples).ctx = none ∧ (8 : BufferId) ≠ 7 := by decide +kernel
theorem witness_Qs1ConstructsThenQuantizesInPlace :
    1 ≤ (⟨⟨true, 1, 0⟩, 1#2, 4#3⟩ : Bundle).W ∧ overflowOfCode 1#2 = some .saturate ∧
    roundingOfCode 4#3 = some .towardZero ∧ (⟨⟨true, 0, 0⟩, 1#2, 4#3⟩ : Bundle).W ≤ 0 ∧
    ¬ ((2#2).toNat ≤ 1 ∧ (0#3).toNat ≤ 4) ∧ ¬ ((0#2).toNat ≤ 1 ∧ (5#3).toNat ≤ 4) ∧
    (noEngineWith [341 / 10, -12 / 10]).mem.buffer 7 = [341 / 10, -12 / 10] ∧ (8 : BufferId) ≠ 7 := by decide +kernel
theorem witness_Q1AnswersAsCfgThenQ :
    1 ≤ (⟨⟨true, 1, 0⟩, 1#2, 4#3⟩ : Bundle).W ∧ overflowOfCode 1#2 = some .saturate ∧
    roundingOfCode 4#3 = some .towardZero ∧ (⟨⟨true, 0, 0⟩, 1#2, 4#3⟩ : Bundle).W ≤ 0 ∧
    ¬ ((2#2).toNat ≤ 1 ∧ (0#3).toNat ≤ 4) ∧ ¬ ((0#2).toNat ≤ 1 ∧ (5#3).toNat ≤ 4) := by decide
theorem witness_DescAnswersTheContextRecord :
    (holding (e062 .wrap) []).ctx = some (contextOf (e062 .wrap)) ∧ State.reset.ctx = none := by decide +kernel
/-- A state and its two successors, the second the same as the first. -/
theorem witness_SecondSaturatingQsChangesNothing :
    (holding (e062 .saturate) samples).ctx = some (contextOf (e062 .saturate)) ∧ 1 ≤ (contextOf (e062 .saturate)).W ∧
    (contextOf (e062 .saturate)).OVF = .saturate ∧
    (leaves (.qs (.seqRW 7)) (holding (e062 .saturate) samples)).isSome = true ∧
    (leaves (.qs (.seqRW 7)) (holding (e062 .saturate) [1, 0, 63 / 4, 0, 13 / 4, 1, 0])).isSome = true := by
  decide +kernel
/-- A command for each error, and an illegal one. -/
theorem witness_EachErrorExactlyWhenItsRuleSays :
    answer (.qs (.seqRW 7)) (noEngineWith samples) = some (.err .noEngine) ∧
    answer (.bndPrec ⟨true, 0, 0⟩) State.reset = some (.err .invalidFormat) ∧
    answer (.cfg ⟨⟨true, 1, 0⟩, 2#2, 0#3⟩) State.reset = some (.err .invalidPolicy) ∧
    answer (.qs1 (.scalar 1) ⟨⟨true, 1, 0⟩, 1#2, 4#3⟩) State.reset = some (.err .typeMismatch) ∧
    answer (.qs (.seqRO [1])) (holding (e062 .wrap) []) = some (.err .typeMismatch) ∧
    decode (present 0x00#8 0#2) = .error .reservedOp := by decide +kernel
theorem witness_ErrorsLeaveNoTrace :
    answer (.qs (.scalar 1)) (holding (e062 .saturate) samples) = some (.err .typeMismatch) ∧
    answer (.cfg ⟨⟨true, 0, 0⟩, 0#2, 0#3⟩) (holding (e062 .saturate) samples) = some (.err .invalidFormat) := by
  decide +kernel
theorem witness_OnlyCfgWritesTheContext :
    (leaves (.cfg ⟨⟨true, 3, -1⟩, 0#2, 0#3⟩) State.reset).map Prod.fst = some (some (contextOf e13m1)) ∧
    (leaves (.qs (.seqRW 7)) (holding (e062 .saturate) samples)).map Prod.fst =
      some (some (contextOf (e062 .saturate))) := by decide +kernel
/-- A successful `CFG`, a reset of a configured block, a `CFG` presented to a block without an engine, and a command
refused for want of one. -/
theorem witness_ValidIsSetByCfgAndClearedByReset :
    1 ≤ (⟨⟨true, 1, 0⟩, 1#2, 4#3⟩ : Bundle).W ∧ ((1#2).toNat ≤ 1 ∧ (4#3).toNat ≤ 4) ∧
    (fed .reset).input = [.reset] ∧ (fed .reset).valid = true ∧ (hostReset (consumeInput (fed .reset))).valid = false ∧
    State.reset.valid = false ∧ decode (present 0x10#8 0#2) = .ok (.cfg bundle) ∧
    validate bundle = .ok ⟨true, 3, -1, .saturate, .towardZero⟩ ∧ (Instr.desc true).usesContext = true := by
  decide +kernel
/-- A command that writes no buffer, and one that writes a buffer other than the one read. -/
theorem witness_OnlyTheNamedBufferIsWritten :
    (Instr.q (.seqRW 7)).writtenBuffer? = none ∧ (Instr.qs1 (.seqRW 8) bundle).writtenBuffer? ≠ some 7 ∧
    (leaves (.q (.seqRW 7)) (holding (e062 .saturate) samples)).isSome = true ∧
    (leaves (.qs1 (.seqRW 8) bundle) (holding (e062 .saturate) samples)).isSome = true := by decide +kernel
/-- The first and the last element, and the first index outside. -/
theorem witness_ElementWriteChangesOneElement :
    0 < (Memory.buffer [(7, samples)] 7).length ∧ 6 < (Memory.buffer [(7, samples)] 7).length ∧
    (Memory.buffer [(7, samples)] 7).length ≤ 7 ∧ ((7 : BufferId), (0 : Nat)) ≠ (7, 6) := by decide +kernel
theorem witness_OneShotsNeitherReadNorWriteTheContext :
    (Instr.q1 (.seqRW 7) bundle).oneShot = true ∧ (Instr.qs1 (.seqRW 7) bundle).oneShot = true ∧
    (Instr.bndPrec ⟨true, 1, 0⟩).oneShot = true := by decide
theorem witness_StepForgetsTheLastResponse :
    acceptWork (fed (.command (present 0x71#8 0#2))) = .run (present 0x71#8 0#2) := by decide +kernel
theorem witness_ResetLeavesNoEngine : (fed .reset).input = .reset :: [] := by decide +kernel
/-- Nothing presented, and a write of a buffer by the host in a state that keeps the invariant. -/
theorem witness_HostSideStepsLeaveTheBlock :
    (holding (e062 .wrap) samples).input = [] ∧ (fed (.hostWrite 8 [1])).input = [.hostWrite 8 [1]] ∧
    (fed (.hostWrite 8 [1])).mem.wf ∧ (contextOf (e062 .saturate)).W ≥ 1 ∧
    (contextOf (e062 .saturate)).toBounds = boundsOf false 6 2 ∧
    (fed (.hostWrite 8 [1])).ctx = some (contextOf (e062 .saturate)) := by decide +kernel
/-- A state that keeps the invariant, with an engine and a listed buffer, and its next state. -/
theorem witness_StepKeepsTheInvariant :
    (fed .reset).Inv ∧ step (fed .reset) = .next (hostReset (consumeInput (fed .reset))) :=
  ⟨⟨by decide +kernel, fun c h => by cases h; exact ⟨by decide, rfl⟩⟩, rfl⟩

end Sys2Proof.Tests
end

section
/-! What a command does with the engine context (10_state.md R22, R26, R35): the one-shot commands ignore it, the
commands that use it answer `NoEngine` or go on with a meaning that ignores it, and `CFG` alone writes it. -/
namespace Sys2Proof.Machine

/-! ## Meanings that ignore the context -/

/-- The meaning `k` answers the same memory and the same response under every context and leaves each context, and
the input, as it was. -/
def IgnoresContext (k : State → Host.Outcome State Fault Refusal) : Prop :=
  ∀ s : State, ∃ (m : Memory) (r : Option Response),
    ∀ c, k { s with ctx := c } = .next { s with ctx := c, mem := m, response := r }

/-- In particular it leaves the context it finds. -/
theorem IgnoresContext.eq_next {k : State → Host.Outcome State Fault Refusal} (h : IgnoresContext k) (s : State) :
    ∃ (m : Memory) (r : Option Response), k s = .next { s with mem := m, response := r } := by
  obtain ⟨m, r, hk⟩ := h s
  exact ⟨m, r, hk s.ctx⟩

theorem raise_ignoresContext (e : Error) : IgnoresContext (raise e) :=
  fun s => ⟨s.mem, some (.err e), fun _ => rfl⟩

/-- Completing with a result computed from memory alone. -/
theorem complete_ignoresContext (g : Memory → Option Result) : IgnoresContext fun s => complete (g s.mem) s :=
  fun s => ⟨s.mem, some (.ok (g s.mem)), fun _ => rfl⟩

theorem withEngine_ignoresContext (v : Except Error Engine) {k : Engine → State → Host.Outcome State Fault Refusal}
    (hk : ∀ e, IgnoresContext (k e)) : IgnoresContext fun s => withEngine v s fun e => k e s := by
  cases v with
  | error e => exact raise_ignoresContext e
  | ok e => exact hk e

theorem answerBound_ignoresContext (t : Triple) (r : Result) : IgnoresContext (answerBound t r) := by
  rcases le_or_gt t.W 0 with hW | hW
  · simpa only [funext (answerBound_nonpos hW r)] using raise_ignoresContext .invalidFormat
  · simpa only [funext (answerBound_pos hW r)] using complete_ignoresContext fun _ => some r

theorem quantizeWith_ignoresContext (e : Engine) (x : SampleOperand) : IgnoresContext (quantizeWith e x) :=
  complete_ignoresContext fun m => some (.values (elementwise (qv e) (loadOperand m x)))

/-- The in-place loop never leaves its buffer, so there is no fault. -/
theorem quantizeInPlace_ignoresContext (e : Engine) (x : SampleOperand) : IgnoresContext (quantizeInPlace e x) := by
  cases x with
  | scalar x => exact raise_ignoresContext .typeMismatch
  | seqRO xs => exact raise_ignoresContext .typeMismatch
  | seqRW b =>
    intro s
    obtain ⟨m, hloop⟩ : ∃ m, rewriteBuffer (qv e) b s.mem = some m := ⟨_, rewriteBuffer_spec (qv e) b s.mem⟩
    exact ⟨m, some (.ok none), fun c => by simp only [quantizeInPlace, hloop, complete]⟩

/-! ## The three classes of commands -/

/-- Every command is `CFG`, uses the context, or is a one-shot command. -/
theorem cfg_or_usesContext_or_oneShot (i : Instr) :
    (∃ b, i = .cfg b) ∨ i.usesContext = true ∨ i.oneShot = true := by
  cases i <;> simp [Instr.usesContext, Instr.oneShot]

theorem exec_ignoresContext_of_oneShot {i : Instr} (h : i.oneShot = true) : IgnoresContext (exec i) := by
  cases i with
  | q1 x b => exact withEngine_ignoresContext _ fun e => quantizeWith_ignoresContext e x
  | qs1 x b => exact withEngine_ignoresContext _ fun e => quantizeInPlace_ignoresContext e x
  | bndMinInt t => exact answerBound_ignoresContext t _
  | bndMaxInt t => exact answerBound_ignoresContext t _
  | bndRangeInt t => exact answerBound_ignoresContext t _
  | bndMinVal t => exact answerBound_ignoresContext t _
  | bndMaxVal t => exact answerBound_ignoresContext t _
  | bndPrec t => exact answerBound_ignoresContext t _
  | cfg | tosc | touc | tobs | q | qs | desc => cases h

/-- A command that uses the context reads it once, and what it goes on with ignores it (44_quantizer_ops.md R140). -/
theorem exec_eq_withContext {i : Instr} (h : i.usesContext = true) :
    ∃ k : Context → State → Host.Outcome State Fault Refusal,
      (∀ c, IgnoresContext (k c)) ∧ ∀ s, exec i s = withContext s fun c => k c s := by
  cases i with
  | tosc x => exact ⟨_, fun c => complete_ignoresContext fun m =>
      some (.codes (elementwise (sc c.toEngine) (loadOperand m x))), fun _ => rfl⟩
  | touc x => exact ⟨_, fun c => complete_ignoresContext fun m =>
      some (.codes (elementwise (uc c.toEngine) (loadOperand m x))), fun _ => rfl⟩
  | tobs x => exact ⟨_, fun c => complete_ignoresContext fun m =>
      some (.bitStrings (elementwise (bs c.toEngine) (loadOperand m x))), fun _ => rfl⟩
  | q x => exact ⟨_, fun c => quantizeWith_ignoresContext c.toEngine x, fun _ => rfl⟩
  | qs x => exact ⟨_, fun c => quantizeInPlace_ignoresContext c.toEngine x, fun _ => rfl⟩
  | desc v => exact ⟨_, fun c => complete_ignoresContext fun _ =>
      some (.record c.toEngine (if v then some c.toBounds else none)), fun _ => rfl⟩
  | cfg | q1 | qs1 | bndMinInt | bndMaxInt | bndRangeInt | bndMinVal | bndMaxVal | bndPrec => cases h

/-- Without an engine a command that uses the context answers `NoEngine` and changes nothing else. -/
theorem exec_of_usesContext_of_ctx_none {i : Instr} {s : State} (hi : i.usesContext = true) (hs : s.ctx = none) :
    exec i s = .next { s with response := some (.err .noEngine) } := by
  obtain ⟨k, -, hexec⟩ := exec_eq_withContext hi
  rw [hexec, withContext_none hs, raise]

/-- A command other than `CFG` changes memory and the response at most. -/
theorem exec_eq_next_of_ne_cfg {i : Instr} (hi : ∀ b, i ≠ .cfg b) (s : State) :
    ∃ (m : Memory) (r : Option Response), exec i s = .next { s with mem := m, response := r } := by
  rcases cfg_or_usesContext_or_oneShot i with ⟨b, rfl⟩ | huse | hone
  · exact absurd rfl (hi b)
  · obtain ⟨k, hk, hexec⟩ := exec_eq_withContext huse
    rw [hexec]
    rcases withContext_cases s fun c => k c s with ⟨-, hw⟩ | ⟨c, -, hw⟩
    · rw [hw]; exact (raise_ignoresContext .noEngine).eq_next s
    · rw [hw]; exact (hk c).eq_next s
  · exact (exec_ignoresContext_of_oneShot hone).eq_next s

/-! ## `CFG` -/

theorem overflowOfCode_isSome_iff : ∀ c : BitVec 2, (overflowOfCode c).isSome = true ↔ c.toNat ≤ 1 := by decide

theorem roundingOfCode_isSome_iff : ∀ c : BitVec 3, (roundingOfCode c).isSome = true ↔ c.toNat ≤ 4 := by decide

/-- A bundle validates when its width is positive and its policies are recognized (41_format_validator.md R102,
R104). -/
theorem validate_eq_ok {b : Bundle} (hW : 1 ≤ b.W) (hp : b.policiesKnown) : ∃ e, validate b = .ok e := by
  obtain ⟨hovf, hrnd⟩ := hp
  obtain ⟨o, ho⟩ := Option.isSome_iff_exists.mp ((overflowOfCode_isSome_iff b.ovf).mpr hovf)
  obtain ⟨r, hr⟩ := Option.isSome_iff_exists.mp ((roundingOfCode_isSome_iff b.rnd).mpr hrnd)
  have hpos : ¬ b.W ≤ 0 := by omega
  exact ⟨⟨b.S, b.W, b.F, o, r⟩, by simp only [validate, hpos, if_false, ho, hr]⟩

theorem exec_cfg_of_ok {b : Bundle} {e : Engine} (h : validate b = .ok e) (s : State) :
    exec (.cfg b) s = .next { s with ctx := some (contextOf e), response := some (.ok none) } := by
  simp only [exec, execCfg, h, withEngine, complete, writeContext]

theorem exec_cfg_of_error {b : Bundle} {e : Error} (h : validate b = .error e) (s : State) :
    exec (.cfg b) s = .next { s with response := some (.err e) } := by
  simp only [exec, execCfg, h, withEngine, raise]

/-- `CFG` leaves the context, or writes that of the engine its bundle validates to and answers `OK`. -/
theorem exec_cfg_cases {b : Bundle} {s t : State} (h : exec (.cfg b) s = .next t) :
    t.ctx = s.ctx ∨ ∃ e, validate b = .ok e ∧ t.ctx = some (contextOf e) ∧ t.response = some (.ok none) := by
  cases hv : validate b with
  | error e =>
    rw [exec_cfg_of_error hv, Host.Outcome.next.injEq] at h
    subst h
    exact .inl rfl
  | ok e =>
    rw [exec_cfg_of_ok hv, Host.Outcome.next.injEq] at h
    subst h
    exact .inr ⟨e, rfl, rfl, rfl⟩

theorem exec_ctx_of_ne_cfg {i : Instr} {s t : State} (hi : ∀ b, i ≠ .cfg b) (h : exec i s = .next t) :
    t.ctx = s.ctx := by
  obtain ⟨m, r, hexec⟩ := exec_eq_next_of_ne_cfg hi s
  rw [hexec, Host.Outcome.next.injEq] at h
  subst h
  rfl

/-! ## The context over a step -/

theorem acceptWork_eq_reset_iff {s : State} : acceptWork s = .reset ↔ ∃ rest, s.input = .reset :: rest := by
  unfold acceptWork
  split <;> simp_all

theorem step_of_reset {s : State} {rest : List HostEvent} (h : s.input = .reset :: rest) :
    step s = .next (hostReset (consumeInput s)) := by
  simp only [step, acceptWork_eq_reset_iff.mpr ⟨rest, h⟩]

/-- A presented command leaves the context, or it is a `CFG` that validated and wrote it. -/
theorem runCommand_ctx_cases {c : Command} {s t : State} (h : runCommand c s = .next t) :
    t.ctx = s.ctx ∨ ∃ b e, decode c = .ok (.cfg b) ∧ validate b = .ok e ∧
      t.ctx = some (contextOf e) ∧ t.response = some (.ok none) := by
  unfold runCommand at h
  split at h
  next i hdec =>
    by_cases hcfg : ∃ b, i = .cfg b
    · obtain ⟨b, rfl⟩ := hcfg
      refine (exec_cfg_cases h).imp_right ?_
      rintro ⟨e, hv, hctx, hresp⟩
      exact ⟨b, e, hdec, hv, hctx, hresp⟩
    · exact .inl (exec_ctx_of_ne_cfg (not_exists.mp hcfg) h)
  next =>
    obtain rfl := raise_eq_next_iff.mp h
    exact .inl rfl

/-- A step leaves the context, clears it at a reset event, or writes it by a `CFG` that validated. -/
theorem step_ctx_cases {s t : State} (h : step s = .next t) :
    t.ctx = s.ctx ∨ (t.ctx = none ∧ ∃ rest, s.input = .reset :: rest) ∨
      ∃ c b e, acceptWork s = .run c ∧ decode c = .ok (.cfg b) ∧ validate b = .ok e ∧
        t.ctx = some (contextOf e) ∧ t.response = some (.ok none) := by
  cases hw : acceptWork s with
  | idle =>
    simp only [step, hw, Host.Outcome.next.injEq] at h
    subst h
    exact .inl rfl
  | run c =>
    simp only [step, hw] at h
    refine (runCommand_ctx_cases h).imp id fun hcfg => .inr ?_
    obtain ⟨b, e, hcfg⟩ := hcfg
    exact ⟨c, b, e, rfl, hcfg⟩
  | reset =>
    simp only [step, hw, Host.Outcome.next.injEq] at h
    subst h
    exact .inr (.inl ⟨rfl, acceptWork_eq_reset_iff.mp hw⟩)
  | write b xs =>
    simp only [step, hw, Host.Outcome.next.injEq] at h
    subst h
    exact .inl rfl

theorem valid_eq_of_ctx_eq {s t : State} (h : t.ctx = s.ctx) : t.valid = s.valid := by simp only [State.valid, h]

theorem valid_eq_false_iff {s : State} : s.valid = false ↔ s.ctx = none := by simp [State.valid]

theorem valid_of_ctx_eq_some {s : State} {c : Context} (h : s.ctx = some c) : s.valid = true := by
  simp [State.valid, h]

/-! ## The statements -/

/-- Settles O43: every one-shot command is a meaning that ignores the context. -/
theorem oneShotsNeitherReadNorWriteTheContext : Obligations.OneShotsNeitherReadNorWriteTheContext := by
  intro i s c hi
  obtain ⟨m, r, hexec⟩ := exec_ignoresContext_of_oneShot hi s
  exact ⟨m, r, hexec s.ctx, hexec c⟩

/-- Settles O39: a command other than `CFG` changes memory and the response at most, and `CFG` writes the whole
context or leaves it. -/
theorem onlyCfgWritesTheContext : Obligations.OnlyCfgWritesTheContext := by
  intro i s t h
  refine ⟨fun hi => exec_ctx_of_ne_cfg hi h, ?_⟩
  rintro b rfl
  refine (exec_cfg_cases h).imp_right ?_
  rintro ⟨e, hv, hctx, -⟩
  exact ⟨e, hv, hctx⟩

/-- Settles O40, by the three things a step can do with the context. -/
theorem validIsSetByCfgAndClearedByReset : Obligations.ValidIsSetByCfgAndClearedByReset := by
  refine ⟨?cfgSets, ?resetClears, ?clearedOnlyByReset, ?setOnlyByCfg, ?noEngine⟩
  case cfgSets =>
    intro b s hW hp
    obtain ⟨e, hv⟩ := validate_eq_ok hW hp
    exact ⟨_, exec_cfg_of_ok hv s, valid_of_ctx_eq_some rfl⟩
  case resetClears =>
    intro s rest hinput
    exact ⟨_, step_of_reset hinput, valid_eq_false_iff.mpr (hostReset_ctx _)⟩
  case clearedOnlyByReset =>
    intro s t h hs ht
    rcases step_ctx_cases h with hsame | ⟨-, hreset⟩ | ⟨c, b, e, -, -, -, hctx, -⟩
    · simp [valid_eq_of_ctx_eq hsame, hs] at ht
    · exact hreset
    · simp [valid_of_ctx_eq_some hctx] at ht
  case setOnlyByCfg =>
    intro s t h hs ht
    rcases step_ctx_cases h with hsame | ⟨hnone, -⟩ | hcfg
    · simp [valid_eq_of_ctx_eq hsame, hs] at ht
    · simp [valid_eq_false_iff.mpr hnone] at ht
    · exact hcfg
  case noEngine =>
    intro i s hi hs
    exact exec_of_usesContext_of_ctx_none hi (valid_eq_false_iff.mp hs)

end Sys2Proof.Machine
end

section
/-! The encoding layer (30_encoding.md R60 to R62, R68, R69, R73): which commands the decoder rejects, the policy codes
and names with the errors they lead to, and the digits of a bit string. -/

/-! ## The decoder: what it rejects when both operand ports are presented -/

namespace Sys2Proof

/-- The decoder rejects by name, whatever the name (R69). -/
def Rejects (r : Except Illegal Instr) : Prop := ∃ e, r = .error e

@[simp] theorem rejects_error (e : Illegal) : Rejects (.error e) := ⟨e, rfl⟩

@[simp] theorem not_rejects_ok (i : Instr) : ¬ Rejects (.ok i) := by rintro ⟨e, h⟩; cases h

/-- `op` and `sub` as the byte's quotient and remainder (R56). -/
theorem opField_toNat (c : Byte) : (opField c).toNat = c.toNat / 16 := by
  simp only [opField, BitVec.extractLsb'_toNat, Nat.shiftRight_eq_div_pow]
  omega

theorem subField_toNat (c : Byte) : (subField c).toNat = c.toNat % 16 := by
  simp [subField, BitVec.extractLsb'_toNat]

/-- The one reserved kind tag is 3 (R63). -/
theorem operand_eq_none_iff {p : SamplePort} : p.operand = none ↔ p.kind = 3#2 := by
  unfold SamplePort.operand
  split
  case h_4 h0 h1 h2 =>
    simp only [imp_false] at h0 h1 h2
    simp only [true_iff]
    bv_omega
  all_goals simp only [reduceCtorEq, false_iff]; bv_omega

theorem bundleOperand_of_presented {c : Command} {b : Bundle} (h : c.bundle = some b) : c.bundleOperand = .ok b := by
  simp only [Command.bundleOperand, h]

theorem sampleOperand_of_reservedKind {c : Command} {p : SamplePort} (h : c.sample = some p) (hk : p.kind = 3#2) :
    c.sampleOperand = .error .reservedKind := by
  simp only [Command.sampleOperand, h, operand_eq_none_iff.mpr hk]

theorem sampleOperand_of_kind {c : Command} {p : SamplePort} (h : c.sample = some p) (hk : p.kind ≠ 3#2) :
    ∃ x, c.sampleOperand = .ok x := by
  obtain ⟨x, hx⟩ := Option.ne_none_iff_exists'.mp (mt operand_eq_none_iff.mp hk)
  exact ⟨x, by simp only [Command.sampleOperand, h, hx]⟩

theorem not_rejects_decodeBundle {c : Command} {b : Bundle} (h : c.bundle = some b) (mk : Bundle → Instr) :
    ¬ Rejects (decodeBundle mk c) := by
  simp [decodeBundle, bundleOperand_of_presented h]

theorem rejects_decodeSample_iff {c : Command} {p : SamplePort} (h : c.sample = some p) (mk : SampleOperand → Instr) :
    Rejects (decodeSample mk c) ↔ p.kind = 3#2 := by
  by_cases hk : p.kind = 3#2
  · simp [decodeSample, sampleOperand_of_reservedKind h hk, hk]
  · obtain ⟨x, hx⟩ := sampleOperand_of_kind h hk
    simp [decodeSample, hx, hk]

theorem rejects_decodeBoth_iff {c : Command} {b : Bundle} {p : SamplePort} (hb : c.bundle = some b)
    (hs : c.sample = some p) (mk : SampleOperand → Bundle → Instr) : Rejects (decodeBoth mk c) ↔ p.kind = 3#2 := by
  by_cases hk : p.kind = 3#2
  · simp [decodeBoth, bundleOperand_of_presented hb, sampleOperand_of_reservedKind hs hk, hk]
  · obtain ⟨x, hx⟩ := sampleOperand_of_kind hs hk
    simp [decodeBoth, bundleOperand_of_presented hb, hx, hk]

theorem rejects_decodePlain_iff {c : Command} {k : Except Illegal Instr} :
    Rejects (decodePlain k c) ↔ c.cmd.toNat % 16 ≠ 0 ∨ Rejects k := by
  have hsub : subField c.cmd = 0#4 ↔ c.cmd.toNat % 16 = 0 := by
    rw [← BitVec.toNat_inj, subField_toNat, BitVec.toNat_ofNat, Nat.zero_mod]
  unfold decodePlain
  split
  case isTrue h => simp [hsub.mp h]
  case isFalse h => simp [mt hsub.mpr h]

theorem rejects_decodeDesc_iff {c : Command} : Rejects (decodeDesc c) ↔ 2 ≤ c.cmd.toNat % 16 := by
  unfold decodeDesc
  rw [subField_toNat]
  split
  case h_3 => simp only [imp_false, rejects_error, true_iff] at *; omega
  all_goals simp only [not_rejects_ok, false_iff]; omega

theorem rejects_decodeBnd_iff {c : Command} {b : Bundle} (h : c.bundle = some b) :
    Rejects (decodeBnd c) ↔ 6 ≤ c.cmd.toNat % 16 := by
  unfold decodeBnd
  rw [subField_toNat]
  split
  case h_7 | h_8 | h_9 => simp only [imp_false, rejects_error, true_iff] at *; omega
  all_goals simp only [not_rejects_decodeBundle h, false_iff]; omega

/-- R69: the arm of `decode` for `op = n` is the case `h_n`, the reserved ops are the last one. -/
theorem rejects_decode_iff {c : Command} {b : Bundle} {p : SamplePort} (hb : c.bundle = some b)
    (hs : c.sample = some p) :
    Rejects (decode c) ↔
      (c.cmd.toNat / 16 = 0 ∨ 0xB ≤ c.cmd.toNat / 16 ∨
       (c.cmd.toNat / 16 = 0xA ∧ (8 ≤ c.cmd.toNat % 16 ∨ c.cmd.toNat % 16 = 6 ∨ c.cmd.toNat % 16 = 7)) ∨
       (c.cmd.toNat / 16 = 7 ∧ 2 ≤ c.cmd.toNat % 16) ∨
       (c.cmd.toNat / 16 ∈ [1, 2, 3, 4, 5, 6, 8, 9] ∧ c.cmd.toNat % 16 ≠ 0) ∨
       (c.cmd.toNat / 16 ∈ [2, 3, 4, 5, 6, 8, 9] ∧ p.kind = 3#2)) := by
  unfold decode
  rw [opField_toNat]
  split
  case h_1 hop => simp [hop, rejects_decodePlain_iff, not_rejects_decodeBundle hb]
  case h_2 hop | h_3 hop | h_4 hop | h_5 hop | h_6 hop =>
    simp [hop, rejects_decodePlain_iff, rejects_decodeSample_iff hs]
  case h_7 hop => simp [hop, rejects_decodeDesc_iff]
  case h_8 hop | h_9 hop => simp [hop, rejects_decodePlain_iff, rejects_decodeBoth_iff hb hs]
  case h_10 hop => simp only [hop, rejects_decodeBnd_iff hb]; simp; omega
  case h_11 => simp only [imp_false, rejects_error, true_iff] at *; omega

/-! ## The bytes of the three commands that check their policy codes -/

theorem decode_cfg_byte {c : Command} {b : Bundle} (hc : c.cmd = 0x10#8) (hb : c.bundle = some b) :
    decode c = .ok (.cfg b) := by
  simp [decode, opField_toNat, hc, decodePlain, subField, decodeBundle, bundleOperand_of_presented hb]

theorem decode_q1_byte {c : Command} {b : Bundle} {x : SampleOperand} (hc : c.cmd = 0x80#8) (hb : c.bundle = some b)
    (hx : c.sampleOperand = .ok x) : decode c = .ok (.q1 x b) := by
  simp [decode, opField_toNat, hc, decodePlain, subField, decodeBoth, bundleOperand_of_presented hb, hx]

theorem decode_qs1_byte {c : Command} {b : Bundle} {x : SampleOperand} (hc : c.cmd = 0x90#8) (hb : c.bundle = some b)
    (hx : c.sampleOperand = .ok x) : decode c = .ok (.qs1 x b) := by
  simp [decode, opField_toNat, hc, decodePlain, subField, decodeBoth, bundleOperand_of_presented hb, hx]

end Sys2Proof

namespace Sys2Proof.Machine

/-! ## Presented commands -/

theorem runCommand_of_ok {c : Command} {i : Instr} (h : decode c = .ok i) (s : State) :
    runCommand c s = exec i s := by
  simp only [runCommand, h]

theorem runCommand_of_error {c : Command} {e : Illegal} (h : decode c = .error e) (s : State) :
    runCommand c s = .next { s with response := some (.err .illegalCommand) } := by
  simp only [runCommand, h, raise]

/-! ## Policy codes -/

theorem overflowOfCode_eq_none_iff {c : BitVec 2} : overflowOfCode c = none ↔ 2 ≤ c.toNat := by
  rw [← Option.not_isSome_iff_eq_none, overflowOfCode_isSome_iff]
  exact Nat.not_le

theorem roundingOfCode_eq_none_iff {c : BitVec 3} : roundingOfCode c = none ↔ 5 ≤ c.toNat := by
  rw [← Option.not_isSome_iff_eq_none, roundingOfCode_isSome_iff]
  exact Nat.not_le

/-- With a positive width, a reserved code in either policy field is the error `InvalidPolicy` (41_format_validator.md
R104, R105). -/
theorem validate_eq_invalidPolicy {b : Bundle} (hW : 1 ≤ b.W)
    (hp : overflowOfCode b.ovf = none ∨ roundingOfCode b.rnd = none) : validate b = .error .invalidPolicy := by
  have hpos : ¬ b.W ≤ 0 := by omega
  unfold validate
  rw [if_neg hpos]
  rcases hp with hovf | hrnd
  · simp only [hovf]
  · cases hovf : overflowOfCode b.ovf with
    | none => rfl
    | some o => simp only [hrnd]

theorem exec_q1_of_error {b : Bundle} {e : Error} (h : validate b = .error e) (x : SampleOperand) (s : State) :
    exec (.q1 x b) s = .next { s with response := some (.err e) } := by
  simp only [exec, execQ1, h, withEngine, raise]

theorem exec_qs1_of_error {b : Bundle} {e : Error} (h : validate b = .error e) (x : SampleOperand) (s : State) :
    exec (.qs1 x b) s = .next { s with response := some (.err e) } := by
  simp only [exec, execQs1, h, withEngine, raise]

/-- A command that takes a bundle for construction answers the validator's error. -/
theorem runCommand_of_validate_error {c : Command} {b : Bundle} {p : SamplePort} {e : Error} (hb : c.bundle = some b)
    (hs : c.sample = some p) (hc : c.cmd = 0x10#8 ∨ ((c.cmd = 0x80#8 ∨ c.cmd = 0x90#8) ∧ p.kind ≠ 3#2))
    (hv : validate b = .error e) (s : State) : runCommand c s = .next { s with response := some (.err e) } := by
  rcases hc with hcfg | ⟨hone, hk⟩
  · rw [runCommand_of_ok (decode_cfg_byte hcfg hb), exec_cfg_of_error hv]
  · obtain ⟨x, hx⟩ := sampleOperand_of_kind hs hk
    rcases hone with hq1 | hqs1
    · rw [runCommand_of_ok (decode_q1_byte hq1 hb hx), exec_q1_of_error hv]
    · rw [runCommand_of_ok (decode_qs1_byte hqs1 hb hx), exec_qs1_of_error hv]

/-! ## Policy names -/

/-- The whole names of one position's rows, case removed. -/
def policyNames (field : PolicyField) : List (List Char) :=
  (policyNameTable.filter fun row => row.2.1 == field).map fun row => foldCase row.1

theorem policyNames_ovf : policyNames .ovf = ["wrap".toList, "saturate".toList] := rfl

theorem policyNames_rnd : policyNames .rnd =
    ["truncate".toList, "nearestawayfromzero".toList, "floor".toList, "ceil".toList, "towardzero".toList] := rfl

/-- Only the letters with case removed are compared. -/
theorem lookupPolicy_congr {name name' : String} (h : foldCase name = foldCase name') (field : PolicyField) :
    lookupPolicy field name = lookupPolicy field name' := by
  simp only [lookupPolicy, h]

theorem ovfCode_congr {name name' : String} (h : foldCase name = foldCase name') :
    ovfCode (some name) = ovfCode (some name') := by
  simp only [ovfCode, lookupPolicy_congr h]

theorem rndCode_congr {name name' : String} (h : foldCase name = foldCase name') :
    rndCode (some name) = rndCode (some name') := by
  simp only [rndCode, lookupPolicy_congr h]

theorem lookupPolicy_of_not_mem {field : PolicyField} {name : String} (h : foldCase name ∉ policyNames field) :
    lookupPolicy field name = none := by
  rw [lookupPolicy, Option.map_eq_none_iff, List.find?_eq_none]
  intro row hrow hmatch
  rw [Bool.and_eq_true, beq_iff_eq (a := foldCase row.1)] at hmatch
  obtain ⟨hfield, hname⟩ := hmatch
  exact h (hname ▸ List.mem_map_of_mem (List.mem_filter.mpr ⟨hrow, hfield⟩))

/-- A name that matches no row of its position is presented as a reserved code (log 14). -/
theorem ovfCode_of_not_mem {name : String} (h : foldCase name ∉ policyNames .ovf) : ovfCode (some name) = 3#2 := by
  simp only [ovfCode, lookupPolicy_of_not_mem h]

theorem rndCode_of_not_mem {name : String} (h : foldCase name ∉ policyNames .rnd) : rndCode (some name) = 7#3 := by
  simp only [rndCode, lookupPolicy_of_not_mem h]

/-- What an overflow name's code can be: that of the row it matches, or a reserved one (R60, R62). -/
theorem ovfCode_some_cases (name : String) :
    (foldCase name = "wrap".toList ∧ ovfCode (some name) = 0#2) ∨
    (foldCase name = "saturate".toList ∧ ovfCode (some name) = 1#2) ∨
    (foldCase name ∉ policyNames .ovf ∧ ovfCode (some name) = 3#2) := by
  by_cases hmem : foldCase name ∈ policyNames .ovf
  · simp only [policyNames_ovf, List.mem_cons, List.not_mem_nil, or_false] at hmem
    rcases hmem with hwrap | hsaturate
    · exact .inl ⟨hwrap, ovfCode_congr (name' := "Wrap") hwrap⟩
    · exact .inr (.inl ⟨hsaturate, ovfCode_congr (name' := "Saturate") hsaturate⟩)
  · exact .inr (.inr ⟨hmem, ovfCode_of_not_mem hmem⟩)

/-- What a rounding name's code can be (R61, R62). -/
theorem rndCode_some_cases (name : String) :
    (foldCase name = "truncate".toList ∧ rndCode (some name) = 0#3) ∨
    (foldCase name = "nearestawayfromzero".toList ∧ rndCode (some name) = 1#3) ∨
    (foldCase name = "floor".toList ∧ rndCode (some name) = 2#3) ∨
    (foldCase name = "ceil".toList ∧ rndCode (some name) = 3#3) ∨
    (foldCase name = "towardzero".toList ∧ rndCode (some name) = 4#3) ∨
    (foldCase name ∉ policyNames .rnd ∧ rndCode (some name) = 7#3) := by
  by_cases hmem : foldCase name ∈ policyNames .rnd
  · simp only [policyNames_rnd, List.mem_cons, List.not_mem_nil, or_false] at hmem
    rcases hmem with htruncate | hnearest | hfloor | hceil | hzero
    · exact .inl ⟨htruncate, rndCode_congr (name' := "Truncate") htruncate⟩
    · exact .inr (.inl ⟨hnearest, rndCode_congr (name' := "NearestAwayFromZero") hnearest⟩)
    · exact .inr (.inr (.inl ⟨hfloor, rndCode_congr (name' := "Floor") hfloor⟩))
    · exact .inr (.inr (.inr (.inl ⟨hceil, rndCode_congr (name' := "Ceil") hceil⟩)))
    · exact .inr (.inr (.inr (.inr (.inl ⟨hzero, rndCode_congr (name' := "TowardZero") hzero⟩))))
  · exact .inr (.inr (.inr (.inr (.inr ⟨hmem, rndCode_of_not_mem hmem⟩))))

theorem ovfCode_some_iff (name : String) :
    (ovfCode (some name) = 0#2 ↔ foldCase name = "wrap".toList) ∧
    (ovfCode (some name) = 1#2 ↔ foldCase name = "saturate".toList) := by
  rcases ovfCode_some_cases name with ⟨hname, hcode⟩ | ⟨hname, hcode⟩ | ⟨hname, hcode⟩
  · simp [hname, hcode]
  · simp [hname, hcode]
  · simpa [policyNames_ovf, hcode] using hname

theorem rndCode_some_iff (name : String) :
    (rndCode (some name) = 0#3 ↔ foldCase name = "truncate".toList) ∧
    (rndCode (some name) = 1#3 ↔ foldCase name = "nearestawayfromzero".toList) ∧
    (rndCode (some name) = 2#3 ↔ foldCase name = "floor".toList) ∧
    (rndCode (some name) = 3#3 ↔ foldCase name = "ceil".toList) ∧
    (rndCode (some name) = 4#3 ↔ foldCase name = "towardzero".toList) := by
  rcases rndCode_some_cases name with
    ⟨hname, hcode⟩ | ⟨hname, hcode⟩ | ⟨hname, hcode⟩ | ⟨hname, hcode⟩ | ⟨hname, hcode⟩ | ⟨hname, hcode⟩
  · simp [hname, hcode]
  · simp [hname, hcode]
  · simp [hname, hcode]
  · simp [hname, hcode]
  · simp [hname, hcode]
  · simpa [policyNames_rnd, hcode] using hname

/-- An omitted name is the default of its position (R60 to R62). -/
theorem ovfCode_none : ovfCode none = ovfCode (some "Wrap") := rfl

theorem rndCode_none : rndCode none = rndCode (some "Truncate") := rfl

theorem bundleOfNames_rnd_none (S : Bool) (W F : Int) (o : Option String) :
    bundleOfNames ⟨S, W, F, o, none⟩ = bundleOfNames ⟨S, W, F, o, some "Truncate"⟩ := by
  simp only [bundleOfNames, rndCode_none]

theorem bundleOfNames_none (S : Bool) (W F : Int) :
    bundleOfNames ⟨S, W, F, none, none⟩ = bundleOfNames ⟨S, W, F, some "Wrap", some "Truncate"⟩ := by
  simp only [bundleOfNames, ovfCode_none, rndCode_none]

/-- A name that matches no row of its position leads to a reserved code in its field. -/
theorem overflowOfCode_of_not_mem {name : String} (h : foldCase name ∉ policyNames .ovf) :
    overflowOfCode (ovfCode (some name)) = none := by
  rw [ovfCode_of_not_mem h, overflowOfCode_eq_none_iff]
  decide

theorem roundingOfCode_of_not_mem {name : String} (h : foldCase name ∉ policyNames .rnd) :
    roundingOfCode (rndCode (some name)) = none := by
  rw [rndCode_of_not_mem h, roundingOfCode_eq_none_iff]
  decide

/-! ## The digits of a bit string -/

/-- The lowest `n` digits of the numeral of `v`, bit `n-1` first. -/
def lowDigits (v : Int) (n : Nat) : BitText := (List.range n).reverse.map fun i => if bitOf v i then '1' else '0'

theorem bitText_eq_lowDigits (W u : Int) : bitText W u = lowDigits (u % modulus W) W.toNat := rfl

theorem lowDigits_succ (v : Int) (n : Nat) :
    lowDigits v (n + 1) = (if bitOf v n then '1' else '0') :: lowDigits v n := by
  simp [lowDigits, List.range_succ]

@[simp] theorem length_lowDigits (v : Int) (n : Nat) : (lowDigits v n).length = n := by simp [lowDigits]

theorem eq_zero_or_one_of_mem_lowDigits {v : Int} {n : Nat} {d : Char} (h : d ∈ lowDigits v n) : d = '0' ∨ d = '1' := by
  obtain ⟨i, -, rfl⟩ := List.mem_map.mp h
  cases bitOf v i <;> simp

theorem bitOf_eq_true_iff {v : Int} {i : Nat} : bitOf v i = true ↔ v / 2 ^ i % 2 = 1 := by simp [bitOf]

/-- Bit `i` stands at place `n-1-i`. -/
theorem lowDigits_getElem? (v : Int) {n i : Nat} (h : i < n) :
    (lowDigits v n)[n - 1 - i]? = some (if v / 2 ^ i % 2 = 1 then '1' else '0') := by
  have hplace : (List.range n).reverse[n - 1 - i]? = some i := by
    rw [List.getElem?_reverse (by simp; omega), List.length_range, List.getElem?_range (by omega)]
    congr 1; omega
  rw [lowDigits, List.getElem?_map, hplace]
  simp only [Option.map_some, bitOf_eq_true_iff]

/-- One digit more is the next bit at its weight. -/
theorem emod_two_pow_succ (v : Int) (n : Nat) : v % 2 ^ (n + 1) = 2 ^ n * (v / 2 ^ n % 2) + v % 2 ^ n := by
  have hdiv : v / (2 ^ n * 2) = v / 2 ^ n / 2 := (Int.ediv_ediv_of_nonneg (by positivity)).symm
  rw [pow_succ, Int.emod_def v (2 ^ n * 2), hdiv, Int.emod_def v, Int.emod_def (v / 2 ^ n)]
  ring

/-- The digits weigh `v` modulo `2^n`. -/
theorem unsignedWeight_lowDigits (v : Int) (n : Nat) : unsignedWeight (lowDigits v n) = v % 2 ^ n := by
  induction n with
  | zero => simp [lowDigits, unsignedWeight]
  | succ n ih =>
    rw [lowDigits_succ, unsignedWeight, ih, length_lowDigits, emod_two_pow_succ]
    rcases Int.emod_two_eq (v / 2 ^ n) with hbit | hbit <;> simp [bitOf, hbit]

theorem lowDigits_zero (n : Nat) : lowDigits 0 n = List.replicate n '0' := by
  simp [lowDigits, bitOf]

/-! ## The statements -/

/-- Settles O3: the rejection of each group of `op`, and the validator's error for the three commands that construct. -/
theorem illegalCommandsAreExactlyTheReservedOnes : Obligations.IllegalCommandsAreExactlyTheReservedOnes := by
  intro c bd p hb hs
  refine ⟨rejects_decode_iff hb hs, fun e s h => runCommand_of_error h s, fun s hc hW hp => ?_⟩
  have hcodes : overflowOfCode bd.ovf = none ∨ roundingOfCode bd.rnd = none :=
    hp.imp overflowOfCode_eq_none_iff.mpr roundingOfCode_eq_none_iff.mpr
  exact runCommand_of_validate_error hb hs hc (validate_eq_invalidPolicy hW hcodes) s

/-- Settles O23: the text is the lowest `W` digits of the unsigned code modulo `2^W`. -/
theorem bitStringIsTheNumeralOfWidthDigits : Obligations.BitStringIsTheNumeralOfWidthDigits := by
  refine ⟨fun e x _ => ?_, by decide, by decide⟩
  have hbs : bs e x = lowDigits (uc e x % 2 ^ e.W.toNat) e.W.toNat :=
    bitText_eq_lowDigits e.W (uc e x)
  rw [hbs]
  refine ⟨length_lowDigits _ _, fun d hd => eq_zero_or_one_of_mem_lowDigits hd, ?_,
    fun i hi => lowDigits_getElem? _ hi, fun hmax => ?_⟩
  · rw [unsignedWeight_lowDigits, Int.emod_emod]
  · rw [hmax, Int.emod_self, lowDigits_zero]

/-- Settles O14: a name's code by the row it matches, and the validator's policy check where it matches none. -/
theorem policyNamesMatchWholeAndCaseFree : Obligations.PolicyNamesMatchWholeAndCaseFree := by
  refine ⟨fun name => ?_, ovfCode_none, rndCode_none, fun c s hW hunknown => ?_⟩
  · obtain ⟨hwrap, hsaturate⟩ := ovfCode_some_iff name
    exact ⟨hwrap, hsaturate, rndCode_some_iff name⟩
  · have hcodes : overflowOfCode (ovfCode c.ovfName) = none ∨ roundingOfCode (rndCode c.rndName) = none := by
      rcases hunknown with ⟨name, hovf, hname⟩ | ⟨name, hrnd, hname⟩
      · exact .inl (hovf ▸ overflowOfCode_of_not_mem hname)
      · exact .inr (hrnd ▸ roundingOfCode_of_not_mem hname)
    exact exec_cfg_of_error (validate_eq_invalidPolicy hW hcodes) s

/-- Settles O7: the expansions by their definition, the omitted policies by the defaults of the name table. -/
theorem pseudoOperationsExpandAsListed : Obligations.PseudoOperationsExpandAsListed := by
  refine ⟨fun x => ⟨rfl, rfl⟩, fun x => ⟨rfl, rfl⟩, ?construct, ?constructRnd, rfl, rfl,
    fun x c => ⟨bundleOfNames c, rfl, rfl⟩, ?oneShot⟩
  case construct => exact fun S W F => congrArg Instr.cfg (bundleOfNames_none S W F)
  case constructRnd => exact fun S W F o => congrArg Instr.cfg (bundleOfNames_rnd_none S W F o)
  case oneShot =>
    intro x S W F o
    exact ⟨congrArg (Instr.q1 x) (bundleOfNames_none S W F), congrArg (Instr.qs1 x) (bundleOfNames_none S W F),
      congrArg (Instr.q1 x) (bundleOfNames_rnd_none S W F o), congrArg (Instr.qs1 x) (bundleOfNames_rnd_none S W F o)⟩

/-- Settles O12: the tables by evaluation, and the validator's policy check. -/
theorem policyCodesAreTheTables : Obligations.PolicyCodesAreTheTables := by
  refine ⟨rfl, rfl, rfl, rfl, rfl, rfl, rfl, rfl, rfl, rfl, rfl, rfl, rfl, rfl, fun b s hW hp => ?_⟩
  exact exec_cfg_of_error (validate_eq_invalidPolicy hW hp) s

end Sys2Proof.Machine
end

section
/-! The bounds of a format and the six commands `BND.*` (40_bounds_calc.md R80 to R96): the closed value of each bound,
and one rule for all six commands. -/
namespace Sys2Proof.Machine

/-! ## The bounds of a width `w + 1` -/

theorem maxInt_false_succ (w : Nat) : maxInt false (w + 1) = 2 ^ (w + 1) - 1 := by
  rw [maxInt_false, modulus_succ, pow_succ']

/-- The range is the same for both signs (R83, R84). -/
theorem rangeInt_succ (S : Bool) (w : Nat) : rangeInt S (w + 1) = 2 ^ (w + 1) - 1 := by
  cases S with
  | false => rw [rangeInt, maxInt_false_succ, minInt_false, sub_zero]
  | true => rw [rangeInt, maxInt_true, minInt_true]; ring

theorem precision_eq_zpow (F : Int) : precision F = (2 : ℚ) ^ (-F) := pow2_eq_zpow (-F)

theorem precision_pos (F : Int) : 0 < precision F := pow2_pos (-F)

/-- The real-valued bounds are the integer bounds in units of the precision (R88). -/
theorem minValue_eq_mul_precision (S : Bool) (W F : Int) : minValue S W F = minInt S W * precision F := by
  rw [minValue, precision_eq_inv, div_eq_mul_inv]

theorem maxValue_eq_mul_precision (S : Bool) (W F : Int) : maxValue S W F = maxInt S W * precision F := by
  rw [maxValue, precision_eq_inv, div_eq_mul_inv]

theorem minValue_true (w : Nat) (F : Int) : minValue true (w + 1) F = -2 ^ w / (2 : ℚ) ^ F := by
  rw [minValue, minInt_true, pow2_eq_zpow]; norm_num

theorem minValue_false (W F : Int) : minValue false W F = 0 := by
  rw [minValue, minInt_false, Int.cast_zero, zero_div]

theorem maxValue_true (w : Nat) (F : Int) : maxValue true (w + 1) F = (2 ^ w - 1) / (2 : ℚ) ^ F := by
  rw [maxValue, maxInt_true, pow2_eq_zpow]; norm_num

theorem maxValue_false (w : Nat) (F : Int) : maxValue false (w + 1) F = (2 ^ (w + 1) - 1) / (2 : ℚ) ^ F := by
  rw [maxValue, maxInt_false_succ, pow2_eq_zpow]; norm_num

/-! ## The six commands -/

/-- The bound a `BND.*` command names. -/
def boundResult : BoundName → Triple → Result
  | .minInt, t => .integer (minInt t.S t.W)
  | .maxInt, t => .integer (maxInt t.S t.W)
  | .rangeInt, t => .integer (rangeInt t.S t.W)
  | .minValue, t => .rational (minValue t.S t.W t.F)
  | .maxValue, t => .rational (maxValue t.S t.W t.F)
  | .precision, t => .rational (precision t.F)

theorem exec_boundCommand (n : BoundName) (t : Triple) (s : State) :
    exec (boundCommand n t) s = answerBound t (boundResult n t) s := by
  cases n <;> rfl

/-- A positive width is answered with the bound, and nothing but the response changes (R90). -/
theorem exec_boundCommand_succ (n : BoundName) {S : Bool} {w : Nat} {F : Int} {r : Result}
    (hr : boundResult n ⟨S, w + 1, F⟩ = r) (s : State) :
    exec (boundCommand n ⟨S, w + 1, F⟩) s = .next { s with response := some (.ok (some r)) } := by
  have hpos : (1 : Int) ≤ w + 1 := by omega
  rw [exec_boundCommand, hr, answerBound_pos (t := ⟨S, w + 1, F⟩) hpos, complete]

/-- A width that is not positive is `InvalidFormat`, whatever the bound (R90). -/
theorem exec_boundCommand_of_nonpos (n : BoundName) {t : Triple} (ht : t.W ≤ 0) (s : State) :
    exec (boundCommand n t) s = .next { s with response := some (.err .invalidFormat) } := by
  rw [exec_boundCommand, answerBound_nonpos ht, raise]

/-! ## The statements -/

/-- Settles O10: the rule for `BND.*` at the real-valued bounds. -/
theorem rationalBoundCommandsAnswer : Obligations.RationalBoundCommandsAnswer := by
  refine ⟨fun _ => ⟨rfl, rfl, rfl⟩, fun w F s => ⟨?minSigned, ?minUnsigned, ?maxSigned, ?maxUnsigned, fun S => ?prec⟩,
    precision_pos, fun S W F => ⟨minValue_eq_mul_precision S W F, maxValue_eq_mul_precision S W F⟩, ?width⟩
  case minSigned => exact exec_boundCommand_succ .minValue (congrArg Result.rational (minValue_true w F)) s
  case minUnsigned => exact exec_boundCommand_succ .minValue (congrArg Result.rational (minValue_false (w + 1) F)) s
  case maxSigned => exact exec_boundCommand_succ .maxValue (congrArg Result.rational (maxValue_true w F)) s
  case maxUnsigned => exact exec_boundCommand_succ .maxValue (congrArg Result.rational (maxValue_false w F)) s
  case prec => exact exec_boundCommand_succ .precision (congrArg Result.rational (precision_eq_zpow F)) s
  case width =>
    intro t s ht
    exact ⟨exec_boundCommand_of_nonpos .minValue ht s, exec_boundCommand_of_nonpos .maxValue ht s,
      exec_boundCommand_of_nonpos .precision ht s⟩

/-- Settles O9: the rule for `BND.*` at the integer bounds. -/
theorem integerBoundCommandsAnswer : Obligations.IntegerBoundCommandsAnswer := by
  refine ⟨fun _ => ⟨rfl, rfl, rfl⟩, fun w F s => ⟨?minSigned, ?minUnsigned, ?maxSigned, ?maxUnsigned, fun S => ?range⟩,
    fun _ _ => rfl, ?width⟩
  case minSigned => exact exec_boundCommand_succ .minInt (congrArg Result.integer (minInt_true w)) s
  case minUnsigned => exact exec_boundCommand_succ .minInt (congrArg Result.integer (minInt_false (w + 1))) s
  case maxSigned => exact exec_boundCommand_succ .maxInt (congrArg Result.integer (maxInt_true w)) s
  case maxUnsigned => exact exec_boundCommand_succ .maxInt (congrArg Result.integer (maxInt_false_succ w)) s
  case range => exact exec_boundCommand_succ .rangeInt (congrArg Result.integer (rangeInt_succ S w)) s
  case width =>
    intro t s ht
    exact ⟨exec_boundCommand_of_nonpos .minInt ht s, exec_boundCommand_of_nonpos .maxInt ht s,
      exec_boundCommand_of_nonpos .rangeInt ht s⟩

end Sys2Proof.Machine
end

section
/-! The validator's answer for every bundle, and `CFG` as the command that writes it (41_format_validator.md R101 to
R107). -/
namespace Sys2Proof.Machine

/-! ## What the validator answers -/

/-- A positive width and two recognized codes give the engine of the bundle's own fields (R101). -/
theorem validate_of_codes {b : Bundle} {o : OverflowPolicy} {r : RoundingPolicy} (hW : 1 ≤ b.W)
    (ho : overflowOfCode b.ovf = some o) (hr : roundingOfCode b.rnd = some r) :
    validate b = .ok { S := b.S, W := b.W, F := b.F, OVF := o, RND := r } := by
  have hpos : ¬ b.W ≤ 0 := by omega
  simp only [validate, hpos, if_false, ho, hr]

/-- The width is checked first: a width that is not positive hides an unrecognized policy (R105). -/
theorem validate_of_nonpos {b : Bundle} (hW : b.W ≤ 0) : validate b = .error .invalidFormat := by
  simp only [validate, hW, if_true]

theorem not_policiesKnown_iff {b : Bundle} :
    ¬ b.policiesKnown ↔ overflowOfCode b.ovf = none ∨ roundingOfCode b.rnd = none := by
  rw [Bundle.policiesKnown, overflowOfCode_eq_none_iff, roundingOfCode_eq_none_iff]
  omega

/-! ## The bounds of the rule's example -/

/-- The unsigned format of 6 bits with 2 fraction bits: every bound from its closed value. -/
theorem boundsOf_unsigned_6_2 :
    boundsOf false 6 2 =
      { MININT := 0, MAXINT := 63, RANGEINT := 63, MINVAL := 0, MAXVAL := 63 / 4, PREC := 1 / 4 } := by
  have hmaxInt : maxInt false 6 = 63 := maxInt_false_succ 5
  have hrangeInt : rangeInt false 6 = 63 := rangeInt_succ false 5
  have hmaxValue : maxValue false 6 2 = 63 / 4 := (maxValue_false 5 2).trans (by norm_num)
  have hprecision : precision 2 = 1 / 4 := by rw [precision_eq_zpow]; norm_num
  rw [boundsOf, minInt_false, hmaxInt, hrangeInt, minValue_false, hmaxValue, hprecision]

/-! ## The statement -/

/-- Settles O13: `CFG` writes the context of the engine the validator answers, or answers the validator's error. -/
theorem cfgWritesTheWholeContextOrNothing : Obligations.CfgWritesTheWholeContextOrNothing := by
  refine ⟨fun _ => rfl, ?writes, ?width, ?policies, ?ruleExample⟩
  case writes => exact fun b o r s hW ho hr => exec_cfg_of_ok (validate_of_codes hW ho hr) s
  case width => exact fun b s hW => exec_cfg_of_error (validate_of_nonpos hW) s
  case policies =>
    intro b s hW hunknown
    exact exec_cfg_of_error (validate_eq_invalidPolicy hW (not_policiesKnown_iff.mp hunknown)) s
  case ruleExample =>
    intro s
    have hvalid : validate ⟨⟨false, 6, 2⟩, 0#2, 0#3⟩ = .ok ⟨false, 6, 2, .wrap, .truncate⟩ :=
      validate_of_codes (by decide) rfl rfl
    rw [exec_cfg_of_ok hvalid, contextOf, boundsOf_unsigned_6_2]

end Sys2Proof.Machine
end

section
/-! The overflow unit in powers of two of the library: its bounds, its modulus and its residue
(42_overflow_saturation_unit.md R111 to R114). -/
namespace Sys2Proof.Machine

/-! ## The bounds and the modulus as rationals -/

/-- A width of at least 1 is `w + 1`. -/
theorem exists_width_succ {W : Int} (hW : 1 ≤ W) : ∃ w : Nat, W = w + 1 :=
  ⟨(W - 1).toNat, by omega⟩

theorem modulus_cast {W : Int} (hW : 1 ≤ W) : (modulus W : ℚ) = (2 : ℚ) ^ W := by
  obtain ⟨w, rfl⟩ := exists_width_succ hW
  rw [modulus_succ, zpow_add_one₀ two_ne_zero, zpow_natCast]
  push_cast
  ring

theorem minInt_cast (S : Bool) {W : Int} (hW : 1 ≤ W) :
    (minInt S W : ℚ) = if S then -(2 : ℚ) ^ (W - 1) else 0 := by
  obtain ⟨w, rfl⟩ := exists_width_succ hW
  cases S with
  | false => simp [minInt_false]
  | true => simp [minInt_true]

theorem maxInt_cast (S : Bool) {W : Int} (hW : 1 ≤ W) :
    (maxInt S W : ℚ) = if S then (2 : ℚ) ^ (W - 1) - 1 else (2 : ℚ) ^ W - 1 := by
  cases S with
  | false => simp [maxInt_false, modulus_cast hW]
  | true =>
    obtain ⟨w, rfl⟩ := exists_width_succ hW
    simp [maxInt_true]

/-- The constant of the re-centring is one more than the range, for both signs (R113; 90_conflicts.md C1). -/
theorem modulus_eq_rangeInt_add_one (S : Bool) {W : Int} (hW : 1 ≤ W) : modulus W = rangeInt S W + 1 := by
  obtain ⟨w, rfl⟩ := exists_width_succ hW
  rw [modulus_succ, rangeInt_succ, pow_succ']
  ring

/-! ## The steps of the unit -/

theorem scale_eq_zpow (F : Int) (x : Sample) : scale F x = x * (2 : ℚ) ^ F := by
  rw [scale, pow2_eq_zpow]

/-- The residue is in `[0, M)` for a negative value too (R112). -/
theorem residue_mem_range (W : Int) (raw : ℚ) : 0 ≤ residue W raw ∧ residue W raw < modulus W := by
  obtain ⟨hnonneg, hlt, -⟩ := fmod_spec (modulus_pos W) raw
  exact ⟨hnonneg, hlt⟩

/-- The residue removes the floored number of moduli (R112). -/
theorem residue_eq_sub_floor {W : Int} (hW : 1 ≤ W) (raw : ℚ) :
    residue W raw = raw - (2 : ℚ) ^ W * ⌊raw / (2 : ℚ) ^ W⌋ := by
  rw [residue, fmod, floorQ, modulus_cast hW]

theorem ovf_of_wrap {e : Engine} (h : e.OVF = .wrap) (x : Sample) : ovf e x = wrapStep e.S e.W (scale e.F x) := by
  simp only [ovf, h]

theorem ovf_of_saturate {e : Engine} (h : e.OVF = .saturate) (x : Sample) :
    ovf e x = saturateStep e.S e.W (scale e.F x) := by
  simp only [ovf, h]

/-! ## The statement -/

/-- Settles O15: scale, residue, modulus and bounds in the library's terms, then the step of the engine's policy. -/
theorem overflowUnitFollowsItsSteps : Obligations.OverflowUnitFollowsItsSteps := by
  intro e x hW raw M res lo hi
  have hraw : scale e.F x = raw := scale_eq_zpow e.F x
  have hM : (modulus e.W : ℚ) = M := modulus_cast hW
  have hres : residue e.W raw = res := residue_eq_sub_floor hW raw
  have hlo : (minInt e.S e.W : ℚ) = lo := minInt_cast e.S hW
  have hhi : (maxInt e.S e.W : ℚ) = hi := maxInt_cast e.S hW
  obtain ⟨hnonneg, hlt⟩ := residue_mem_range e.W raw
  refine ⟨hres ▸ hnonneg, hres ▸ hM ▸ hlt, ?range, fun hwrap => ?wrap, fun hsaturate => ?saturate⟩
  case range => rw [← hM, modulus_eq_rangeInt_add_one e.S hW, Int.cast_add, Int.cast_one]
  case wrap => rw [ovf_of_wrap hwrap, hraw, wrapStep, hres, hM, hhi]
  case saturate => rw [ovf_of_saturate hsaturate, hraw, saturateStep, clamp, hlo, hhi]

end Sys2Proof.Machine
end

section
/-! The rounding engine (43_rounding_engine.md R126 to R132): the inequalities that determine each policy's answer, and
the one arithmetic of `Truncate` and `Floor` carried to every conversion. -/
namespace Sys2Proof.Machine

/-! ## What each rounding answers -/

theorem rnd_truncate (v : ℚ) : rnd .truncate v = floorQ v := rfl
theorem rnd_floor (v : ℚ) : rnd .floor v = floorQ v := rfl
theorem rnd_ceil (v : ℚ) : rnd .ceil v = ceilQ v := rfl
theorem rnd_nearestAwayFromZero (v : ℚ) : rnd .nearestAwayFromZero v = rha v := rfl
theorem rnd_towardZero (v : ℚ) : rnd .towardZero v = rtz v := rfl

/-- R130's second form: `rtz` floors a value that is not negative and ceils a negative one. -/
theorem rtz_eq_ite (v : ℚ) : rtz v = if 0 ≤ v then ⌊v⌋ else ⌈v⌉ := by
  rw [rtz, floorQ, floorQ, Int.floor_neg, neg_neg]

/-- A half-way value goes up where it is not negative, and down where it is. -/
theorem rha_eq_iff {v : ℚ} {z : Int} :
    rha v = z ↔ if 0 ≤ v then (z : ℚ) - 1 / 2 ≤ v ∧ v < z + 1 / 2 else (z : ℚ) - 1 / 2 < v ∧ v ≤ z + 1 / 2 := by
  unfold rha
  split_ifs with hv
  · rw [floorQ_eq_iff]
    constructor <;> rintro ⟨hle, hlt⟩ <;> constructor <;> linarith
  · rw [neg_eq_iff_eq_neg, floorQ_eq_iff, Int.cast_neg]
    constructor <;> rintro ⟨hle, hlt⟩ <;> constructor <;> linarith

theorem rtz_eq_iff {v : ℚ} {z : Int} :
    rtz v = z ↔ if 0 ≤ v then (z : ℚ) ≤ v ∧ v < z + 1 else (z : ℚ) - 1 < v ∧ v ≤ z := by
  rw [rtz_eq_ite]
  split_ifs with hv
  · exact floorQ_eq_iff
  · exact ceilQ_eq_iff

/-! ## The two policies that look at the sign -/

/-- `rha` answers a nearest integer, and of two nearest ones the one of larger magnitude (R127). -/
theorem rha_nearest (v : ℚ) :
    |(rha v : ℚ) - v| ≤ 1 / 2 ∧ (|(rha v : ℚ) - v| = 1 / 2 → |v| < |(rha v : ℚ)|) := by
  have hdet := rha_eq_iff.mp (rfl : rha v = rha v)
  split_ifs at hdet with hv
  · obtain ⟨hle, hlt⟩ := hdet
    refine ⟨abs_le.mpr ⟨by linarith, by linarith⟩, fun htie => ?_⟩
    have hup : (rha v : ℚ) - v = 1 / 2 := by
      rcases eq_or_eq_neg_of_abs_eq htie with h | h <;> linarith
    calc |v| = v := abs_of_nonneg hv
      _ < rha v := by linarith
      _ ≤ |(rha v : ℚ)| := le_abs_self _
  · obtain ⟨hlt, hle⟩ := hdet
    refine ⟨abs_le.mpr ⟨by linarith, by linarith⟩, fun htie => ?_⟩
    have hdown : (rha v : ℚ) - v = -(1 / 2) := by
      rcases eq_or_eq_neg_of_abs_eq htie with h | h <;> linarith
    calc |v| = -v := abs_of_neg (not_le.mp hv)
      _ < -rha v := by linarith
      _ ≤ |(rha v : ℚ)| := neg_le_abs _

/-- `rtz` answers the integer of largest magnitude that is not beyond the value, of the value's sign or zero (R130). -/
theorem rtz_toward_zero (v : ℚ) :
    |(rtz v : ℚ)| ≤ |v| ∧ |v| < |(rtz v : ℚ)| + 1 ∧ 0 ≤ (rtz v : ℚ) * v := by
  have hdet := rtz_eq_iff.mp (rfl : rtz v = rtz v)
  split_ifs at hdet with hv
  · obtain ⟨hle, hlt⟩ := hdet
    have hnonneg : (0 : ℚ) ≤ rtz v := by
      rw [rtz_eq_ite, if_pos hv]
      exact Int.cast_nonneg (Int.floor_nonneg.mpr hv)
    rw [abs_of_nonneg hnonneg, abs_of_nonneg hv]
    exact ⟨hle, hlt, mul_nonneg hnonneg hv⟩
  · obtain ⟨hlt, hle⟩ := hdet
    have hneg : v < 0 := not_le.mp hv
    have hnonpos : (rtz v : ℚ) ≤ 0 := by
      rw [rtz_eq_ite, if_neg hv]
      exact Int.cast_nonpos.mpr (Int.ceil_le.mpr (by simpa using hneg.le))
    rw [abs_of_nonpos hnonpos, abs_of_neg hneg]
    exact ⟨by linarith, by linarith, mul_nonneg_of_nonpos_of_nonpos hnonpos hneg.le⟩

/-! ## `Truncate` and `Floor` -/

/-- The function does not tell an engine under `Truncate` from the same engine under `Floor` (R132). -/
def FloorsAlike {α : Type} (g : Engine → α) : Prop :=
  ∀ e : Engine, g { e with RND := .truncate } = g { e with RND := .floor }

/-- A command that answers such a function's value of each element of its operand. -/
theorem FloorsAlike.complete_elementwise {α : Type} {g : Engine → Sample → α} (h : FloorsAlike g)
    (result : Shaped α → Result) (x : SampleOperand) :
    FloorsAlike fun e (s : State) => complete (some (result (elementwise (g e) (loadOperand s.mem x)))) s :=
  fun e => congrArg (fun f (s : State) => complete (some (result (elementwise f (loadOperand s.mem x)))) s) (h e)

theorem sc_floorsAlike : FloorsAlike sc :=
  fun e => funext fun x => (rnd_truncate (ovf e x)).trans (rnd_floor (ovf e x)).symm

theorem uc_floorsAlike : FloorsAlike uc :=
  fun e => congrArg (fun code x => unsignedOf e.W (code x)) (sc_floorsAlike e)

theorem bs_floorsAlike : FloorsAlike bs :=
  fun e => congrArg (fun code x => bitText e.W (code x)) (uc_floorsAlike e)

theorem qv_floorsAlike : FloorsAlike qv :=
  fun e => congrArg (fun code x => (code x : ℚ) / pow2 e.F) (sc_floorsAlike e)

theorem quantizeWith_floorsAlike (x : SampleOperand) : FloorsAlike fun e => quantizeWith e x :=
  qv_floorsAlike.complete_elementwise .values x

theorem quantizeInPlace_floorsAlike (x : SampleOperand) : FloorsAlike fun e => quantizeInPlace e x := by
  intro e
  cases x with
  | scalar x => rfl
  | seqRO xs => rfl
  | seqRW b => funext s; simp only [quantizeInPlace, qv_floorsAlike e]

/-- A command that uses the context, other than `DESC`, goes on with a meaning of the engine alone that does not tell
the two policies apart. -/
theorem exec_eq_withContext_of_ne_desc {i : Instr} (h : i.usesContext = true) (hdesc : ∀ v, i ≠ .desc v) :
    ∃ k : Engine → State → Host.Outcome State Fault Refusal,
      (∀ e, IgnoresContext (k e)) ∧ FloorsAlike k ∧ ∀ s, exec i s = withContext s fun c => k c.toEngine s := by
  cases i with
  | tosc x => exact ⟨_, fun e => complete_ignoresContext fun m =>
      some (.codes (elementwise (sc e) (loadOperand m x))),
      sc_floorsAlike.complete_elementwise .codes x, fun _ => rfl⟩
  | touc x => exact ⟨_, fun e => complete_ignoresContext fun m =>
      some (.codes (elementwise (uc e) (loadOperand m x))),
      uc_floorsAlike.complete_elementwise .codes x, fun _ => rfl⟩
  | tobs x => exact ⟨_, fun e => complete_ignoresContext fun m =>
      some (.bitStrings (elementwise (bs e) (loadOperand m x))),
      bs_floorsAlike.complete_elementwise .bitStrings x, fun _ => rfl⟩
  | q x => exact ⟨_, fun e => quantizeWith_ignoresContext e x, quantizeWith_floorsAlike x, fun _ => rfl⟩
  | qs x => exact ⟨_, fun e => quantizeInPlace_ignoresContext e x, quantizeInPlace_floorsAlike x, fun _ => rfl⟩
  | desc v => exact absurd rfl (hdesc v)
  | cfg | q1 | qs1 | bndMinInt | bndMaxInt | bndRangeInt | bndMinVal | bndMaxVal | bndPrec => cases h

/-- The codes 0 and 2 in one bundle: the validator answers the same error, or one engine under the two policies. -/
theorem validate_truncate_floor_cases (b : Bundle) :
    (∃ err, validate { b with rnd := 0#3 } = .error err ∧ validate { b with rnd := 2#3 } = .error err) ∨
    ∃ e : Engine, validate { b with rnd := 0#3 } = .ok { e with RND := .truncate } ∧
      validate { b with rnd := 2#3 } = .ok { e with RND := .floor } := by
  rcases le_or_gt b.W 0 with hW | hW
  · exact .inl ⟨.invalidFormat, validate_of_nonpos hW, validate_of_nonpos hW⟩
  · cases ho : overflowOfCode b.ovf with
    | none =>
      exact .inl ⟨.invalidPolicy, validate_eq_invalidPolicy hW (.inl ho), validate_eq_invalidPolicy hW (.inl ho)⟩
    | some o => exact .inr ⟨⟨b.S, b.W, b.F, o, .truncate⟩, validate_of_codes hW ho rfl, validate_of_codes hW ho rfl⟩

/-- So a one-shot command whose meaning does not tell the two policies apart is the same under both codes. -/
theorem withEngine_truncate_eq_floor {k : Engine → State → Host.Outcome State Fault Refusal} (hk : FloorsAlike k)
    (b : Bundle) (s : State) :
    withEngine (validate { b with rnd := 0#3 }) s (fun e => k e s) =
      withEngine (validate { b with rnd := 2#3 }) s fun e => k e s := by
  rcases validate_truncate_floor_cases b with ⟨err, htruncate, hfloor⟩ | ⟨e, htruncate, hfloor⟩
  · rw [htruncate, hfloor]
  · rw [htruncate, hfloor]; exact congrFun (hk e) s

/-- `DESC` reports the engine as the context holds it, and the cached bounds when verbose (44_quantizer_ops.md R153). -/
theorem exec_desc_of_ctx {s : State} {c : Context} (h : s.ctx = some c) (v : Bool) :
    exec (.desc v) s = .next { s with
      response := some (.ok (some (.record c.toEngine (if v then some c.toBounds else none)))) } := by
  rw [exec, execDesc, withContext_some h, complete]

/-! ## The statements -/

/-- Settles O18: each policy by what its rounding answers, the examples by the inequalities that determine it. -/
theorem roundingPoliciesAreTheirFunctions : Obligations.RoundingPoliciesAreTheirFunctions := by
  unfold Obligations.RoundingPoliciesAreTheirFunctions
  simp only [rnd_truncate, rnd_floor, rnd_ceil, rnd_nearestAwayFromZero, rnd_towardZero]
  refine ⟨fun v => ⟨⟨floorQ_le v, lt_floorQ_add_one v⟩, ⟨floorQ_le v, lt_floorQ_add_one v⟩,
      ⟨Int.le_ceil v, Int.ceil_lt_add_one v⟩, rha_nearest v, rtz_toward_zero v, rfl, rtz_eq_ite v⟩,
    floorQ_eq_iff.mpr (by norm_num), rha_eq_iff.mpr (by norm_num), rha_eq_iff.mpr (by norm_num),
    rha_eq_iff.mpr (by norm_num), rha_eq_iff.mpr (by norm_num), rha_eq_iff.mpr (by norm_num),
    rha_eq_iff.mpr (by norm_num), ceilQ_eq_iff.mpr (by norm_num), ceilQ_eq_iff.mpr (by norm_num),
    rtz_eq_iff.mpr (by norm_num), rtz_eq_iff.mpr (by norm_num), fun v hgt hneg => ?_⟩
  exact rtz_eq_iff.mpr (by simp [not_le.mpr hneg, hgt, hneg.le])

/-- Settles O19: the signed code does not tell the two policies apart, so nothing computed from it does. -/
theorem truncateAndFloorConvertAlike : Obligations.TruncateAndFloorConvertAlike := by
  refine ⟨fun e x => ⟨congrFun (sc_floorsAlike e) x, congrFun (uc_floorsAlike e) x, congrFun (bs_floorsAlike e) x,
    congrFun (qv_floorsAlike e) x⟩, ?context, ?oneShot, rfl, rfl, ?desc⟩
  case context =>
    intro s c i huse hdesc
    obtain ⟨k, hignores, halike, hexec⟩ := exec_eq_withContext_of_ne_desc huse hdesc
    obtain ⟨m, r, hk⟩ := hignores { c.toEngine with RND := .truncate } s
    refine ⟨m, r, ?_, ?_⟩
    · rw [hexec, withContext_some rfl]
      exact hk _
    · rw [hexec, withContext_some rfl]
      exact (congrFun (halike c.toEngine) _).symm.trans (hk _)
  case oneShot =>
    intro s x b
    exact ⟨withEngine_truncate_eq_floor (quantizeWith_floorsAlike x) b s,
      withEngine_truncate_eq_floor (quantizeInPlace_floorsAlike x) b s⟩
  case desc => exact fun s c v hctx => ⟨_, exec_desc_of_ctx hctx v⟩

end Sys2Proof.Machine
end

section
/-! The quantizing commands and the description (44_quantizer_ops.md R145 to R153): the quantized value as an exact
multiple of the precision, the in-place rewrite of a buffer, and what `Q`, `Q1`, `QS` and `DESC` answer. -/
namespace Sys2Proof.Machine

/-! ## The quantized value -/

theorem qv_eq_div_zpow (e : Engine) (x : Sample) : qv e x = sc e x / (2 : ℚ) ^ e.F := by
  rw [qv, pow2_eq_zpow]

theorem qv_eq_mul_precision (e : Engine) (x : Sample) : qv e x = sc e x * precision e.F := by
  rw [qv, precision_eq_inv, div_eq_mul_inv]

/-- Scaling back by `2^F` loses nothing. -/
theorem qv_mul_zpow (e : Engine) (x : Sample) : qv e x * (2 : ℚ) ^ e.F = sc e x := by
  rw [qv_eq_div_zpow, div_mul_cancel₀ _ (zpow_ne_zero _ two_ne_zero)]

/-! ## The value of a sample, for the rules' examples -/

/-- Under `Saturate` and `Truncate` the code is the floor of the clamped raw value (R114, R126). -/
theorem qv_of_saturate_truncate {S : Bool} {W F z : Int} {x : Sample}
    (hle : (z : ℚ) ≤ clamp (x * (2 : ℚ) ^ F) (minInt S W) (maxInt S W))
    (hlt : clamp (x * (2 : ℚ) ^ F) (minInt S W) (maxInt S W) < z + 1) :
    qv ⟨S, W, F, .saturate, .truncate⟩ x = z / (2 : ℚ) ^ F := by
  have hcode : sc ⟨S, W, F, .saturate, .truncate⟩ x = z := by
    rw [sc, rnd_truncate, ovf_of_saturate rfl, saturateStep, scale_eq_zpow]
    exact floorQ_eq_iff.mpr ⟨hle, hlt⟩
  rw [qv_eq_div_zpow, hcode]

theorem minInt_nonpos (S : Bool) (W : Int) : minInt S W ≤ 0 := by
  cases S with
  | false => exact (minInt_false W).le
  | true => simp [minInt]

theorem maxInt_lt_modulus (S : Bool) {W : Int} (hW : 1 ≤ W) : maxInt S W < modulus W := by
  have hmin := minInt_nonpos S W
  rw [modulus_eq_rangeInt_add_one S hW, rangeInt]
  omega

/-- `Wrap` leaves a raw value between 0 and `maxInt` as it is: no modulus is removed and none is subtracted (R112,
R113). -/
theorem wrapStep_of_nonneg_of_le_maxInt {S : Bool} {W : Int} {raw : ℚ} (hW : 1 ≤ W) (hnonneg : 0 ≤ raw)
    (hle : raw ≤ maxInt S W) : wrapStep S W raw = raw := by
  have hlt : raw < modulus W := hle.trans_lt (Int.cast_lt.mpr (maxInt_lt_modulus S hW))
  have hpos : (0 : ℚ) < modulus W := hnonneg.trans_lt hlt
  have hquot : floorQ (raw / modulus W) = 0 :=
    floorQ_eq_iff.mpr ⟨by simpa using div_nonneg hnonneg hpos.le, by simpa using (div_lt_one hpos).mpr hlt⟩
  have hres : residue W raw = raw := by rw [residue, fmod, hquot, Int.cast_zero, mul_zero, sub_zero]
  rw [wrapStep, hres, if_neg fun h => absurd h.2 (not_lt.mpr hle)]

/-- Under `Wrap` and `Truncate` the code of a sample whose raw value lies between 0 and `maxInt` is that
value's floor. -/
theorem qv_of_wrap_truncate {S : Bool} {W F z : Int} {x : Sample} (hW : 1 ≤ W) (hnonneg : 0 ≤ x * (2 : ℚ) ^ F)
    (hmax : x * (2 : ℚ) ^ F ≤ maxInt S W) (hle : (z : ℚ) ≤ x * (2 : ℚ) ^ F) (hlt : x * (2 : ℚ) ^ F < z + 1) :
    qv ⟨S, W, F, .wrap, .truncate⟩ x = z / (2 : ℚ) ^ F := by
  have hcode : sc ⟨S, W, F, .wrap, .truncate⟩ x = z := by
    rw [sc, rnd_truncate, ovf_of_wrap rfl, scale_eq_zpow, wrapStep_of_nonneg_of_le_maxInt hW hnonneg hmax]
    exact floorQ_eq_iff.mpr ⟨hle, hlt⟩
  rw [qv_eq_div_zpow, hcode]

/-! ## The in-place rewrite -/

/-- The in-place loop leaves the mapped elements in its buffer, of the same number and order, and no other buffer
changed (20_memory.md R44). -/
theorem rewriteBuffer_buffer (f : Sample → Sample) (b : BufferId) (m : Memory) :
    ∃ m', rewriteBuffer f b m = some m' ∧ m'.buffer b = (m.buffer b).map f ∧
      ∀ b', b' ≠ b → m'.buffer b' = m.buffer b' := by
  refine ⟨_, rewriteBuffer_spec f b m, ?_⟩
  split_ifs with hempty
  · exact ⟨by rw [hempty, List.map_nil], fun _ _ => rfl⟩
  · exact ⟨buffer_store_self (by simpa using hempty) b m, fun b' hne => buffer_store_ne hne _ m⟩

/-- What `QS` and `QS1` do with a writable buffer (R150, R152). -/
theorem quantizeInPlace_seqRW (e : Engine) (b : BufferId) (s : State) : ∃ m : Memory,
    quantizeInPlace e (.seqRW b) s = .next { s with mem := m, response := some (.ok none) } ∧
    m.buffer b = (s.mem.buffer b).map (qv e) ∧ ∀ b', b' ≠ b → m.buffer b' = s.mem.buffer b' := by
  obtain ⟨m, hloop, hself, hother⟩ := rewriteBuffer_buffer (qv e) b s.mem
  exact ⟨m, by simp only [quantizeInPlace, hloop, complete], hself, hother⟩

/-! ## The commands -/

theorem exec_qs_of_ctx {s : State} {c : Context} (h : s.ctx = some c) (x : SampleOperand) :
    exec (.qs x) s = quantizeInPlace c.toEngine x s := by
  rw [exec, execQs, withContext_some h]

theorem exec_q_of_ctx {s : State} {c : Context} (h : s.ctx = some c) (x : SampleOperand) :
    exec (.q x) s = quantizeWith c.toEngine x s := by
  rw [exec, execQ, withContext_some h]

theorem exec_q1_of_ok {b : Bundle} {e : Engine} (h : validate b = .ok e) (x : SampleOperand) (s : State) :
    exec (.q1 x b) s = quantizeWith e x s := by
  simp only [exec, execQ1, h, withEngine]

/-- `Q1` against `CFG` and then `Q`: they differ in the context `CFG` leaves, and answer the same (R151). -/
theorem exec_q1_eq_cfg_then_q {b : Bundle} {e : Engine} (h : validate b = .ok e) (x : SampleOperand) (s : State) :
    ∃ t u, exec (.cfg b) s = .next t ∧ exec (.q x) t = .next u ∧
      exec (.q1 x b) s = .next { s with response := u.response } := by
  refine ⟨_, _, exec_cfg_of_ok h s, (exec_q_of_ctx rfl x).trans rfl, ?_⟩
  rw [exec_q1_of_ok h, quantizeWith, complete, contextOf_toEngine]

/-! ## The rules' examples -/

/-- Scenario 8.6: four samples inside the range, two below it and one above it. -/
theorem map_qv_unsigned_6_2_saturate :
    [123 / 100, -12 / 10, 341 / 10, 0, 326 / 100, 1, -234 / 100].map (qv ⟨false, 6, 2, .saturate, .truncate⟩) =
      [1, 0, 63 / 4, 0, 13 / 4, 1, 0] := by
  have hmin : minInt false 6 = 0 := minInt_false 6
  have hmax : maxInt false 6 = 63 := maxInt_false_succ 5
  have hvalue : ∀ {x : Sample} (z : Int), (z : ℚ) ≤ clamp (x * 2 ^ (2 : Int)) 0 63 →
      clamp (x * 2 ^ (2 : Int)) 0 63 < z + 1 → qv ⟨false, 6, 2, .saturate, .truncate⟩ x = z / 4 := by
    intro x z hle hlt
    rw [← hmin, ← hmax] at hle hlt
    rw [qv_of_saturate_truncate hle hlt]
    norm_num
  simp only [List.map_cons, List.map_nil]
  rw [hvalue 4, hvalue 0, hvalue 63, hvalue 0, hvalue 13, hvalue 4, hvalue 0] <;> norm_num [clamp]

/-- The signed format of 3 bits with a precision of 2: `pi` is between one and two units. -/
theorem qv_signed_3_m1_wrap : qv ⟨true, 3, -1, .wrap, .truncate⟩ (31415926 / 10000000) = 2 := by
  have hmax : maxInt true 3 = 3 := maxInt_true 2
  rw [qv_of_wrap_truncate (z := 1)] <;> norm_num [hmax]

theorem validate_signed_3_m1 :
    validate ⟨⟨true, 3, -1⟩, 0#2, 0#3⟩ = .ok ⟨true, 3, -1, .wrap, .truncate⟩ :=
  validate_of_codes (by decide) rfl rfl

/-- The signed format of 3 bits with a precision of 2: every bound from its closed value. -/
theorem boundsOf_signed_3_m1 :
    boundsOf true 3 (-1) =
      { MININT := -4, MAXINT := 3, RANGEINT := 7, MINVAL := -8, MAXVAL := 6, PREC := 2 } := by
  have hminInt : minInt true 3 = -4 := minInt_true 2
  have hmaxInt : maxInt true 3 = 3 := maxInt_true 2
  have hrangeInt : rangeInt true 3 = 7 := rangeInt_succ true 2
  have hminValue : minValue true 3 (-1) = -8 := (minValue_true 2 (-1)).trans (by norm_num)
  have hmaxValue : maxValue true 3 (-1) = 6 := (maxValue_true 2 (-1)).trans (by norm_num)
  have hprecision : precision (-1) = 2 := by rw [precision_eq_zpow]; norm_num
  rw [boundsOf, hminInt, hmaxInt, hrangeInt, hminValue, hmaxValue, hprecision]

/-! ## The statements -/

/-- Settles O31: the in-place rewrite of the operand's own buffer, and the two errors before any access. -/
theorem qsQuantizesItsBufferInPlace : Obligations.QsQuantizesItsBufferInPlace := by
  refine ⟨fun _ => rfl, ?inPlace, ?mismatch, ?noEngine, ?scenario⟩
  case inPlace =>
    intro s c b hctx
    rw [exec_qs_of_ctx hctx]
    exact quantizeInPlace_seqRW c.toEngine b s
  case mismatch =>
    exact fun s c hctx => ⟨fun x => exec_qs_of_ctx hctx (.scalar x), fun xs => exec_qs_of_ctx hctx (.seqRO xs)⟩
  case noEngine => exact fun s x hctx => exec_of_usesContext_of_ctx_none rfl hctx
  case scenario =>
    intro s c b hctx hengine hbuffer
    obtain ⟨m, hnext, hself, -⟩ := quantizeInPlace_seqRW c.toEngine b s
    refine ⟨m, (exec_qs_of_ctx hctx _).trans hnext, ?_⟩
    rw [hself, hbuffer, hengine, map_qv_unsigned_6_2_saturate]

/-- Settles O33: the transient engine is the one `CFG` would write, and the errors are the validator's. -/
theorem q1AnswersAsCfgThenQ : Obligations.Q1AnswersAsCfgThenQ := by
  refine ⟨fun _ _ => rfl, ?answers, ?width, ?policies, fun _ _ => rfl, ?ruleExample, ?ruleError⟩
  case answers =>
    intro s bd o r x hW ho hr
    have hvalid := validate_of_codes hW ho hr
    exact ⟨exec_q1_of_ok hvalid x s, exec_q1_eq_cfg_then_q hvalid x s⟩
  case width => exact fun s bd x hW => exec_q1_of_error (validate_of_nonpos hW) x s
  case policies =>
    intro s bd x hW hunknown
    exact exec_q1_of_error (validate_eq_invalidPolicy hW (not_policiesKnown_iff.mp hunknown)) x s
  case ruleExample =>
    intro s
    rw [exec_q1_of_ok validate_signed_3_m1, quantizeWith, loadOperand, elementwise, qv_signed_3_m1_wrap, complete]
  case ruleError => exact exec_q1_of_error (validate_of_nonpos le_rfl) (.scalar 1)

/-- Settles O25: the division by `2^F` is exact over the rationals. -/
theorem quantizedValueIsCodeTimesPrecision : Obligations.QuantizedValueIsCodeTimesPrecision :=
  fun e x => ⟨qv_eq_div_zpow e x, qv_eq_mul_precision e x, qv_mul_zpow e x⟩

/-- Settles O34: the record of the context as held; after `CFG` its bounds are those of the engine it wrote. -/
theorem descAnswersTheContextRecord : Obligations.DescAnswersTheContextRecord := by
  refine ⟨⟨rfl, rfl⟩, ?record, ?noEngine, ?afterCfg⟩
  case record => exact fun s c hctx => ⟨exec_desc_of_ctx hctx false, exec_desc_of_ctx hctx true⟩
  case noEngine => exact fun s v hctx => exec_of_usesContext_of_ctx_none rfl hctx
  case afterCfg =>
    intro s
    refine ⟨_, exec_cfg_of_ok validate_signed_3_m1 s, ?_⟩
    rw [exec_desc_of_ctx rfl true, if_pos rfl, contextOf_toEngine, contextOf_toBounds, boundsOf_signed_3_m1]

end Sys2Proof.Machine
end

section
/-! The five errors and when each is answered (60_exceptions.md R172 to R179): one condition per error. A command that
meets a condition raises that error, and one that meets none ends with `OK`. -/
namespace Sys2Proof.Machine

/-! ## The conditions -/

/-- When `i` in the state `s` is to answer an error. R179's order is in the conditions: `InvalidPolicy` asks for a
positive width, `TypeMismatch` for an engine or a valid bundle. -/
def ErrorCondition (i : Instr) (s : State) : Error → Prop
  | .illegalCommand => False
  | .noEngine => i.usesContext = true ∧ s.ctx = none
  | .invalidFormat => ∃ b, i.bundle? = some b ∧ b.W ≤ 0
  | .invalidPolicy => ∃ b, i.checkedPolicies? = some b ∧ 1 ≤ b.W ∧ (2 ≤ b.ovf.toNat ∨ 5 ≤ b.rnd.toNat)
  | .typeMismatch =>
    (∃ x, i = .qs x ∧ s.ctx ≠ none ∧ ∀ b, x ≠ .seqRW b) ∨
      ∃ x bd, i = .qs1 x bd ∧ 1 ≤ bd.W ∧ bd.policiesKnown ∧ ∀ b, x ≠ .seqRW b

/-- The outcome is that of a command that ended with status `OK`. -/
def Completes (o : Host.Outcome State Fault Refusal) : Prop := ∃ r u, o = complete r u

theorem Completes.response_ne_err {o : Host.Outcome State Fault Refusal} {t : State} (ho : Completes o)
    (h : o = .next t) (e : Error) : t.response ≠ some (.err e) := by
  obtain ⟨r, u, rfl⟩ := ho
  obtain rfl := complete_eq_next_iff.mp h
  simp

/-! ## The operands of a command -/

theorem checkedPolicies?_eq_some_iff {i : Instr} {b : Bundle} :
    i.checkedPolicies? = some b ↔ i = .cfg b ∨ (∃ x, i = .q1 x b) ∨ ∃ x, i = .qs1 x b := by
  cases i <;> simp [Instr.checkedPolicies?]

theorem bundle?_of_checkedPolicies? {i : Instr} {b : Bundle} (h : i.checkedPolicies? = some b) :
    i.bundle? = some b := by
  rcases checkedPolicies?_eq_some_iff.mp h with rfl | ⟨x, rfl⟩ | ⟨x, rfl⟩ <;> rfl

@[simp] theorem bundle?_boundCommand (n : BoundName) (t : Triple) : (boundCommand n t).bundle? = some t.bundle := by
  cases n <;> rfl

/-- Every command uses the context, is built from a bundle with policies, or asks for a bound. -/
theorem usesContext_or_checkedPolicies_or_bound (i : Instr) :
    i.usesContext = true ∨ (∃ b, i.checkedPolicies? = some b) ∨ ∃ n t, i = boundCommand n t := by
  cases i with
  | tosc | touc | tobs | q | qs | desc => exact .inl rfl
  | cfg b | q1 _ b | qs1 _ b => exact .inr (.inl ⟨b, rfl⟩)
  | bndMinInt t => exact .inr (.inr ⟨.minInt, t, rfl⟩)
  | bndMaxInt t => exact .inr (.inr ⟨.maxInt, t, rfl⟩)
  | bndRangeInt t => exact .inr (.inr ⟨.rangeInt, t, rfl⟩)
  | bndMinVal t => exact .inr (.inr ⟨.minValue, t, rfl⟩)
  | bndMaxVal t => exact .inr (.inr ⟨.maxValue, t, rfl⟩)
  | bndPrec t => exact .inr (.inr ⟨.precision, t, rfl⟩)

theorem bundle?_of_usesContext {i : Instr} (h : i.usesContext = true) : i.bundle? = none := by
  cases i with
  | tosc | touc | tobs | q | qs | desc => rfl
  | cfg | q1 | qs1 | bndMinInt | bndMaxInt | bndRangeInt | bndMinVal | bndMaxVal | bndPrec => cases h

/-- Of a bundle a command carries the policies are checked, or only the triple is read. -/
theorem bundle?_cases {i : Instr} {b : Bundle} (h : i.bundle? = some b) :
    i.checkedPolicies? = some b ∨ ∃ n t, i = boundCommand n t ∧ t.bundle = b := by
  rcases usesContext_or_checkedPolicies_or_bound i with huse | ⟨b', hb'⟩ | ⟨n, t, rfl⟩
  · simp [bundle?_of_usesContext huse] at h
  · obtain rfl := Option.some.inj ((bundle?_of_checkedPolicies? hb').symm.trans h)
    exact .inl hb'
  · rw [bundle?_boundCommand] at h
    exact .inr ⟨n, t, rfl, Option.some.inj h⟩

theorem not_policiesKnown_iff_codes {b : Bundle} : ¬ b.policiesKnown ↔ 2 ≤ b.ovf.toNat ∨ 5 ≤ b.rnd.toNat := by
  rw [not_policiesKnown_iff, overflowOfCode_eq_none_iff, roundingOfCode_eq_none_iff]

/-! ## In place -/

theorem quantizeInPlace_of_not_seqRW (e : Engine) {x : SampleOperand} (hx : ∀ b, x ≠ .seqRW b) (s : State) :
    quantizeInPlace e x s = raise .typeMismatch s := by
  cases x with
  | scalar | seqRO => rfl
  | seqRW b => exact absurd rfl (hx b)

/-- An in-place rewrite meets an operand it cannot write, or ends with `OK`. -/
theorem not_seqRW_or_quantizeInPlace_completes (e : Engine) (x : SampleOperand) (s : State) :
    (∀ b, x ≠ .seqRW b) ∨ Completes (quantizeInPlace e x s) := by
  cases x with
  | scalar | seqRO => exact .inl fun _ => nofun
  | seqRW b =>
    obtain ⟨m, hnext, -⟩ := quantizeInPlace_seqRW e b s
    exact .inr ⟨none, { s with mem := m }, hnext⟩

theorem exec_qs1_of_ok {b : Bundle} {e : Engine} (h : validate b = .ok e) (x : SampleOperand) (s : State) :
    exec (.qs1 x b) s = quantizeInPlace e x s := by
  simp only [exec, execQs1, h, withEngine]

/-! ## A command that meets a condition raises that error -/

theorem exec_of_validate_error {i : Instr} {b : Bundle} {e : Error} (hb : i.checkedPolicies? = some b)
    (hv : validate b = .error e) (s : State) : exec i s = raise e s := by
  rcases checkedPolicies?_eq_some_iff.mp hb with rfl | ⟨x, rfl⟩ | ⟨x, rfl⟩
  · exact exec_cfg_of_error hv s
  · exact exec_q1_of_error hv x s
  · exact exec_qs1_of_error hv x s

/-- So the conditions exclude each other and one error is reported (R179). -/
theorem exec_of_errorCondition {i : Instr} {s : State} {e : Error} (h : ErrorCondition i s e) :
    exec i s = raise e s := by
  cases e with
  | illegalCommand => exact h.elim
  | noEngine =>
    obtain ⟨huse, hctx⟩ := h
    exact exec_of_usesContext_of_ctx_none huse hctx
  | invalidFormat =>
    obtain ⟨b, hb, hW⟩ := h
    rcases bundle?_cases hb with hchecked | ⟨n, t, rfl, rfl⟩
    · exact exec_of_validate_error hchecked (validate_of_nonpos hW) s
    · exact exec_boundCommand_of_nonpos n hW s
  | invalidPolicy =>
    obtain ⟨b, hb, hW, hcodes⟩ := h
    have hunknown := not_policiesKnown_iff.mp (not_policiesKnown_iff_codes.mpr hcodes)
    exact exec_of_validate_error hb (validate_eq_invalidPolicy hW hunknown) s
  | typeMismatch =>
    rcases h with ⟨x, rfl, hctx, hx⟩ | ⟨x, b, rfl, hW, hp, hx⟩
    · obtain ⟨c, hc⟩ := Option.ne_none_iff_exists'.mp hctx
      rw [exec_qs_of_ctx hc, quantizeInPlace_of_not_seqRW _ hx]
    · obtain ⟨eng, hv⟩ := validate_eq_ok hW hp
      rw [exec_qs1_of_ok hv, quantizeInPlace_of_not_seqRW _ hx]

/-! ## A command that meets none ends with `OK` -/

/-- With an engine, a command that uses the context fails only in `QS`, on its operand. -/
theorem errorCondition_or_completes_of_ctx {i : Instr} {s : State} {c : Context} (huse : i.usesContext = true)
    (hctx : s.ctx = some c) : (∃ e, ErrorCondition i s e) ∨ Completes (exec i s) := by
  cases i with
  | qs x =>
    rw [exec_qs_of_ctx hctx]
    refine (not_seqRW_or_quantizeInPlace_completes c.toEngine x s).imp_left fun hx => ?_
    exact ⟨.typeMismatch, .inl ⟨x, rfl, by simp [hctx], hx⟩⟩
  | tosc | touc | tobs | q | desc => exact .inr ⟨_, s, withContext_some hctx _⟩
  | cfg | q1 | qs1 | bndMinInt | bndMaxInt | bndRangeInt | bndMinVal | bndMaxVal | bndPrec => cases huse

/-- A command built from a bundle with policies fails in the validator's two ways, or in `QS1` on its operand. -/
theorem errorCondition_or_completes_of_checkedPolicies {i : Instr} {b : Bundle} (hb : i.checkedPolicies? = some b)
    (s : State) : (∃ e, ErrorCondition i s e) ∨ Completes (exec i s) := by
  rcases le_or_gt b.W 0 with hW | hW
  · exact .inl ⟨.invalidFormat, b, bundle?_of_checkedPolicies? hb, hW⟩
  by_cases hp : b.policiesKnown
  · obtain ⟨e, hv⟩ := validate_eq_ok hW hp
    rcases checkedPolicies?_eq_some_iff.mp hb with rfl | ⟨x, rfl⟩ | ⟨x, rfl⟩
    · exact .inr ⟨none, writeContext (contextOf e) s, exec_cfg_of_ok hv s⟩
    · exact .inr ⟨_, s, exec_q1_of_ok hv x s⟩
    · rw [exec_qs1_of_ok hv]
      refine (not_seqRW_or_quantizeInPlace_completes e x s).imp_left fun hx => ?_
      exact ⟨.typeMismatch, .inr ⟨x, b, rfl, hW, hp, hx⟩⟩
  · exact .inl ⟨.invalidPolicy, b, hb, hW, not_policiesKnown_iff_codes.mp hp⟩

theorem errorCondition_or_completes (i : Instr) (s : State) :
    (∃ e, ErrorCondition i s e) ∨ Completes (exec i s) := by
  rcases usesContext_or_checkedPolicies_or_bound i with huse | ⟨b, hb⟩ | ⟨n, t, rfl⟩
  · cases hctx : s.ctx with
    | none => exact .inl ⟨.noEngine, huse, hctx⟩
    | some c => exact errorCondition_or_completes_of_ctx huse hctx
  · exact errorCondition_or_completes_of_checkedPolicies hb s
  · rcases le_or_gt t.W 0 with hW | hW
    · exact .inl ⟨.invalidFormat, t.bundle, bundle?_boundCommand n t, hW⟩
    · rw [exec_boundCommand, answerBound_pos hW]
      exact .inr ⟨_, s, rfl⟩

/-! ## The statement -/

/-- A command answers an error exactly when it meets that error's condition. -/
theorem response_eq_err_iff {i : Instr} {s t : State} (h : exec i s = .next t) (e : Error) :
    t.response = some (.err e) ↔ ErrorCondition i s e := by
  constructor
  · intro hresp
    rcases errorCondition_or_completes i s with ⟨e', he'⟩ | hok
    · obtain rfl := raise_eq_next_iff.mp ((exec_of_errorCondition he').symm.trans h)
      obtain rfl : e' = e := by simpa using hresp
      exact he'
    · exact absurd hresp (hok.response_ne_err h e)
  · intro he
    obtain rfl := raise_eq_next_iff.mp ((exec_of_errorCondition he).symm.trans h)
    rfl

/-- A raised error writes no element. -/
theorem mem_eq_of_response_eq_err {i : Instr} {s t : State} {e : Error} (h : exec i s = .next t)
    (hresp : t.response = some (.err e)) : t.mem = s.mem := by
  have hraise := exec_of_errorCondition ((response_eq_err_iff h e).mp hresp)
  obtain rfl := raise_eq_next_iff.mp (hraise.symm.trans h)
  rfl

/-- Settles O36: each error by its condition, and no condition for `IllegalCommand` once a command is decoded. -/
theorem eachErrorExactlyWhenItsRuleSays : Obligations.EachErrorExactlyWhenItsRuleSays := by
  refine ⟨?undecodable, fun i s t h => ⟨response_eq_err_iff h .noEngine, response_eq_err_iff h .invalidFormat,
    response_eq_err_iff h .invalidPolicy, response_eq_err_iff h .typeMismatch, mem_eq_of_response_eq_err h, ?legal⟩⟩
  case undecodable =>
    rintro c s ⟨e, hdec⟩
    exact runCommand_of_error hdec s
  case legal => exact fun hresp => (response_eq_err_iff h .illegalCommand).mp hresp

end Sys2Proof.Machine
end

section
/-! Decoder and encoder against each other (30_encoding.md R55 to R63): encoding then decoding, on the abstract ports
and on ports of any width; what a decoded command took from its ports; and the step that runs a presented command. -/
namespace Sys2Proof

/-! ## When each part of the decoder answers a command -/

theorem bundleOperand_eq_ok_iff {c : Command} {b : Bundle} : c.bundleOperand = .ok b ↔ c.bundle = some b := by
  unfold Command.bundleOperand
  split <;> simp_all

theorem sampleOperand_eq_ok_iff {c : Command} {x : SampleOperand} :
    c.sampleOperand = .ok x ↔ ∃ p, c.sample = some p ∧ p.operand = some x := by
  unfold Command.sampleOperand
  split
  · simp_all
  · split <;> simp_all

theorem decodeBundle_eq_ok_iff {mk : Bundle → Instr} {c : Command} {i : Instr} :
    decodeBundle mk c = .ok i ↔ ∃ b, c.bundle = some b ∧ mk b = i := by
  simp only [← bundleOperand_eq_ok_iff]
  unfold decodeBundle
  split <;> simp_all

theorem decodeSample_eq_ok_iff {mk : SampleOperand → Instr} {c : Command} {i : Instr} :
    decodeSample mk c = .ok i ↔ ∃ x, c.sampleOperand = .ok x ∧ mk x = i := by
  unfold decodeSample
  split <;> simp_all

theorem decodeBoth_eq_ok_iff {mk : SampleOperand → Bundle → Instr} {c : Command} {i : Instr} :
    decodeBoth mk c = .ok i ↔ ∃ x b, c.sampleOperand = .ok x ∧ c.bundle = some b ∧ mk x b = i := by
  simp only [← bundleOperand_eq_ok_iff]
  unfold decodeBoth
  split <;> simp_all

theorem decodePlain_eq_ok_iff {k : Except Illegal Instr} {c : Command} {i : Instr} :
    decodePlain k c = .ok i ↔ c.cmd.toNat % 16 = 0 ∧ k = .ok i := by
  have hsub : subField c.cmd = 0#4 ↔ c.cmd.toNat % 16 = 0 := by
    rw [← BitVec.toNat_inj, subField_toNat, BitVec.toNat_ofNat, Nat.zero_mod]
  simp only [decodePlain, hsub]
  split_ifs with h <;> simp [h]

/-! ## Decoding what the encoder presents -/

@[simp] theorem encode_cmd (i : Instr) : (encode i).cmd = i.byte := rfl
@[simp] theorem encode_bundle (i : Instr) : (encode i).bundle = i.bundle? := rfl

/-- The kind tag selects the wire the operand was put on (R63). -/
theorem operand_port (x : SampleOperand) : x.port.operand = some x := by
  cases x <;> rfl

theorem sampleOperand_encode_eq_ok_iff {i : Instr} {x : SampleOperand} :
    (encode i).sampleOperand = .ok x ↔ i.sample? = some x := by
  cases h : i.sample? with
  | none => simp [Command.sampleOperand, encode, h]
  | some y => simp [Command.sampleOperand, encode, h, operand_port]

theorem decode_encode (i : Instr) : decode (encode i) = .ok i := by
  cases i with
  | cfg b => simp [decode, opField_toNat, Instr.byte, decodePlain_eq_ok_iff, decodeBundle_eq_ok_iff, Instr.bundle?]
  | tosc x | touc x | tobs x | q x | qs x =>
    simp [decode, opField_toNat, Instr.byte, decodePlain_eq_ok_iff, decodeSample_eq_ok_iff,
      sampleOperand_encode_eq_ok_iff, Instr.sample?]
  | desc v => cases v <;> simp [decode, opField_toNat, Instr.byte, decodeDesc, subField_toNat]
  | q1 x b | qs1 x b =>
    simp [decode, opField_toNat, Instr.byte, decodePlain_eq_ok_iff, decodeBoth_eq_ok_iff,
      sampleOperand_encode_eq_ok_iff, Instr.sample?, Instr.bundle?]
  | bndMinInt | bndMaxInt | bndRangeInt | bndMinVal | bndMaxVal | bndPrec =>
    simp [decode, opField_toNat, Instr.byte, decodeBnd, subField_toNat, decodeBundle_eq_ok_iff, Instr.bundle?,
      Triple.bundle]

/-! ## Ports of `n` bits -/

/-- A field of `n` bits carries the integers of `n` bits of two's complement, at width 0 the integer 0 alone (R59). -/
theorem s2_ofInt {n : Nat} {v : Int} (h : fitsField n v = true) : s2 (BitVec.ofInt n v) = v := by
  simp only [fitsField, Bool.and_eq_true, decide_eq_true_eq] at h
  obtain ⟨hlo, hhi⟩ := h
  have hpow : ((2 ^ n : Nat) : Int) = 2 ^ n := by norm_cast
  rw [s2, BitVec.toInt_ofInt]
  exact Int.bmod_eq_of_le_mul_two (by omega) (by omega)

theorem read_drive {n : Nat} {b : Bundle} (h : b.toTriple.fits n = true) : (b.drive n).read = b := by
  obtain ⟨⟨S, W, F⟩, o, r⟩ := b
  obtain ⟨hW, hF⟩ := (Bool.and_eq_true _ _).mp h
  simp only [Bundle.drive, CfgPort.read, s2_ofInt hW, s2_ofInt hF]
  cases S <;> rfl

/-- Only a bundle can be too wide for its port. -/
theorem bundle?_fits_of_wellFormed {n : Nat} {i : Instr} (h : i.wellFormed n = true) {b : Bundle}
    (hb : i.bundle? = some b) : b.toTriple.fits n = true := by
  cases i with
  | tosc | touc | tobs | q | qs | desc => cases hb
  | cfg | q1 | qs1 | bndMinInt | bndMaxInt | bndRangeInt | bndMinVal | bndMaxVal | bndPrec => cases hb; exact h

/-- Ports wide enough for a command present what the abstract ports present. -/
theorem read_encodeWires {n : Nat} {i : Instr} (h : i.wellFormed n = true) : (encodeWires n i).read = encode i := by
  have hbundle : (i.bundle?.map (Bundle.drive n)).map CfgPort.read = i.bundle? := by
    cases hb : i.bundle? with
    | none => rfl
    | some b => simp [read_drive (bundle?_fits_of_wellFormed h hb)]
  simp only [Wires.read, encodeWires, hbundle, encode]

/-! ## What a decoded command took from its ports -/

/-- The byte, the sample operand and the bundle of `i` are those `c` presents; of a `BND.*` command's bundle the triple
alone. -/
def Command.Presents (c : Command) (i : Instr) : Prop :=
  i.byte = c.cmd ∧
    (∀ x, i.sample? = some x → ∃ p, c.sample = some p ∧ p.operand = some x) ∧
    ∀ b, i.bundle? = some b → ∃ b', c.bundle = some b' ∧ b'.toTriple = b.toTriple ∧ (opField c.cmd ≠ 0xA#4 → b' = b)

/-- A byte is its `op` and its `sub` (R56). -/
theorem byte_eq_of_fields {c : Byte} {op sub : Nat} (hop : c.toNat / 16 = op) (hsub : c.toNat % 16 = sub) :
    BitVec.ofNat 8 (16 * op + sub) = c := by
  rw [← hop, ← hsub, Nat.div_add_mod, BitVec.ofNat_toNat, BitVec.setWidth_eq]

theorem presents_of_decodeBundle {c : Command} {mk : Bundle → Instr} {i : Instr} (h : decodeBundle mk c = .ok i)
    (hbyte : ∀ b, (mk b).byte = c.cmd) (hsample : ∀ b, (mk b).sample? = none) (hbundle : ∀ b, (mk b).bundle? = some b) :
    c.Presents i := by
  obtain ⟨b, hb, rfl⟩ := decodeBundle_eq_ok_iff.mp h
  refine ⟨hbyte b, by simp [hsample b], fun b' hb' => ⟨b, hb, ?_⟩⟩
  obtain rfl := Option.some.inj ((hbundle b).symm.trans hb')
  exact ⟨rfl, fun _ => rfl⟩

theorem presents_of_decodeSample {c : Command} {mk : SampleOperand → Instr} {i : Instr}
    (h : decodeSample mk c = .ok i) (hbyte : ∀ x, (mk x).byte = c.cmd) (hsample : ∀ x, (mk x).sample? = some x)
    (hbundle : ∀ x, (mk x).bundle? = none) : c.Presents i := by
  obtain ⟨x, hx, rfl⟩ := decodeSample_eq_ok_iff.mp h
  refine ⟨hbyte x, fun x' hx' => ?_, by simp [hbundle x]⟩
  obtain rfl := Option.some.inj ((hsample x).symm.trans hx')
  exact sampleOperand_eq_ok_iff.mp hx

theorem presents_of_decodeBoth {c : Command} {mk : SampleOperand → Bundle → Instr} {i : Instr}
    (h : decodeBoth mk c = .ok i) (hbyte : ∀ x b, (mk x b).byte = c.cmd) (hsample : ∀ x b, (mk x b).sample? = some x)
    (hbundle : ∀ x b, (mk x b).bundle? = some b) : c.Presents i := by
  obtain ⟨x, b, hx, hb, rfl⟩ := decodeBoth_eq_ok_iff.mp h
  refine ⟨hbyte x b, fun x' hx' => ?_, fun b' hb' => ⟨b, hb, ?_⟩⟩
  · obtain rfl := Option.some.inj ((hsample x b).symm.trans hx')
    exact sampleOperand_eq_ok_iff.mp hx
  · obtain rfl := Option.some.inj ((hbundle x b).symm.trans hb')
    exact ⟨rfl, fun _ => rfl⟩

/-- A `BND.*` command takes the triple and leaves the policy codes (R59). -/
theorem presents_of_decodeBound {c : Command} {mk : Triple → Instr} {i : Instr} (hop : c.cmd.toNat / 16 = 10)
    (h : decodeBundle (fun b => mk b.toTriple) c = .ok i) (hbyte : ∀ t, (mk t).byte = c.cmd)
    (hsample : ∀ t, (mk t).sample? = none) (hbundle : ∀ t, (mk t).bundle? = some t.bundle) : c.Presents i := by
  obtain ⟨b, hb, rfl⟩ := decodeBundle_eq_ok_iff.mp h
  have hfield : opField c.cmd = 0xA#4 := by
    rw [← BitVec.toNat_inj, opField_toNat, hop]
    rfl
  refine ⟨hbyte _, by simp [hsample], fun b' hb' => ⟨b, hb, ?_, fun hne => absurd hfield hne⟩⟩
  obtain rfl := Option.some.inj ((hbundle _).symm.trans hb')
  rfl

theorem presents_of_decodeDesc {c : Command} {i : Instr} (hop : c.cmd.toNat / 16 = 7) (h : decodeDesc c = .ok i) :
    c.Presents i := by
  unfold decodeDesc at h
  rw [subField_toNat] at h
  split at h
  case h_3 => cases h
  case h_1 hsub | h_2 hsub =>
    cases h
    exact ⟨byte_eq_of_fields hop hsub, nofun, nofun⟩

theorem presents_of_decodeBnd {c : Command} {i : Instr} (hop : c.cmd.toNat / 16 = 10) (h : decodeBnd c = .ok i) :
    c.Presents i := by
  unfold decodeBnd at h
  rw [subField_toNat] at h
  split at h
  case h_7 | h_8 | h_9 => cases h
  case h_1 hsub | h_2 hsub | h_3 hsub | h_4 hsub | h_5 hsub | h_6 hsub =>
    exact presents_of_decodeBound hop h (fun _ => byte_eq_of_fields hop hsub) (fun _ => rfl) fun _ => rfl

/-- The arm of `decode` for `op = n` is the case `h_n`. -/
theorem presents_of_decode {c : Command} {i : Instr} (h : decode c = .ok i) : c.Presents i := by
  unfold decode at h
  rw [opField_toNat] at h
  split at h
  case h_11 => cases h
  case h_7 hop => exact presents_of_decodeDesc hop h
  case h_10 hop => exact presents_of_decodeBnd hop h
  case h_1 hop =>
    obtain ⟨hsub, h⟩ := decodePlain_eq_ok_iff.mp h
    exact presents_of_decodeBundle h (fun _ => byte_eq_of_fields hop hsub) (fun _ => rfl) fun _ => rfl
  case h_2 hop | h_3 hop | h_4 hop | h_5 hop | h_6 hop =>
    obtain ⟨hsub, h⟩ := decodePlain_eq_ok_iff.mp h
    exact presents_of_decodeSample h (fun _ => byte_eq_of_fields hop hsub) (fun _ => rfl) fun _ => rfl
  case h_8 hop | h_9 hop =>
    obtain ⟨hsub, h⟩ := decodePlain_eq_ok_iff.mp h
    exact presents_of_decodeBoth h (fun _ _ => byte_eq_of_fields hop hsub) (fun _ _ => rfl) fun _ _ => rfl

/-! ## The ops that take an operand -/

/-- The ops of the table's rows with a bundle (R57). -/
theorem bundle?_isSome_of_op {i : Instr} (h : i.byte.toNat / 16 ∈ [1, 8, 9, 10]) : ∃ b, i.bundle? = some b := by
  cases i with
  | tosc | touc | tobs | q | qs => simp [Instr.byte] at h
  | desc v => cases v <;> simp [Instr.byte] at h
  | cfg | q1 | qs1 | bndMinInt | bndMaxInt | bndRangeInt | bndMinVal | bndMaxVal | bndPrec => exact ⟨_, rfl⟩

/-- The ops of the table's rows with a sample operand (R57). -/
theorem sample?_isSome_of_op {i : Instr} (h : i.byte.toNat / 16 ∈ [2, 3, 4, 5, 6, 8, 9]) :
    ∃ x, i.sample? = some x := by
  cases i with
  | cfg | bndMinInt | bndMaxInt | bndRangeInt | bndMinVal | bndMaxVal | bndPrec => simp [Instr.byte] at h
  | desc v => cases v <;> simp [Instr.byte] at h
  | tosc | touc | tobs | q | qs | q1 | qs1 => exact ⟨_, rfl⟩

theorem decodeTableWord_eq_some_iff {nbits w : Nat} {i : Instr} :
    decodeTableWord nbits w = some i ↔ decode (tableCommand nbits w) = .ok i := by
  unfold decodeTableWord
  split <;> simp_all

end Sys2Proof

namespace Sys2Proof.Machine

/-! ## The step that runs a presented command -/

theorem step_of_run {s : State} {c : Command} (h : acceptWork s = .run c) :
    step s = runCommand c (consumeInput s) := by
  simp only [step, h]

theorem consumeInput_of_cons {s : State} {ev : HostEvent} {rest : List HostEvent} (h : s.input = ev :: rest) :
    consumeInput s = { s with input := rest } := by
  rw [consumeInput, h, List.tail_cons]

theorem step_of_command {s : State} {c : Command} {rest : List HostEvent} (h : s.input = .command c :: rest) :
    step s = runCommand c { s with input := rest } := by
  rw [step_of_run (c := c) (by simp only [acceptWork, h]), consumeInput_of_cons h]

theorem step_of_named {s : State} {n : NamedCommand} {rest : List HostEvent} (h : s.input = .named n :: rest) :
    step s = runCommand (presentNamed n) { s with input := rest } := by
  rw [step_of_run (c := presentNamed n) (by simp only [acceptWork, h]), consumeInput_of_cons h]

/-! ## The statements -/

/-- Settles O1: the decoder on the encoder's output, and ports wide enough for a command read back what was put on
them. -/
theorem decodeEncodeAgreeOnPorts : Obligations.DecodeEncodeAgreeOnPorts := by
  intro i
  refine ⟨decode_encode i, fun n hfits => ?_⟩
  rw [decodeWires, read_encodeWires hfits, decode_encode]

/-- Settles O2, by the arms of the decoder. -/
theorem decodedCommandKeepsByteAndOperands : Obligations.DecodedCommandKeepsByteAndOperands :=
  fun _ _ h => presents_of_decode h

/-- Settles O4: a command that decoded would carry the operand its op takes, and so it would have been presented. -/
theorem missingOperandsAreIllegal : Obligations.MissingOperandsAreIllegal := by
  intro c
  cases hdec : decode c with
  | error e => exact ⟨fun _ _ => ⟨e, rfl⟩, fun _ _ => ⟨e, rfl⟩⟩
  | ok i =>
    obtain ⟨hbyte, hsample, hbundle⟩ := presents_of_decode hdec
    constructor
    · intro hnone hop
      obtain ⟨b, hb⟩ := bundle?_isSome_of_op (hbyte.symm ▸ hop)
      obtain ⟨b', hb', -⟩ := hbundle b hb
      simp [hnone] at hb'
    · intro hnone hop
      obtain ⟨x, hx⟩ := sample?_isSome_of_op (hbyte.symm ▸ hop)
      obtain ⟨p, hp, -⟩ := hsample x hx
      simp [hnone] at hp

/-- Settles O5: the step presents the head of the input, and a named command's encoding decodes to its expansion. -/
theorem stepRunsTheDecodedCommand : Obligations.StepRunsTheDecodedCommand := by
  intro s c rest hinput
  refine ⟨fun i hdec => ?_, fun e hdec => ?_, ?_⟩
  · rw [step_of_command hinput, runCommand_of_ok hdec]
  · rw [step_of_command hinput, runCommand_of_error hdec]
  · rintro n rfl
    exact ⟨by rw [step_of_command hinput, presentNamed, runCommand_of_ok (decode_encode _)],
      (step_of_named rfl).trans (step_of_command hinput).symm⟩

/-- Settles O6: presenting a word and consuming it again leaves the state before. -/
theorem stepRunsTheTableWord : Obligations.StepRunsTheTableWord := by
  intro s nbits w i h
  rw [State.withFetchWord, step_of_run (acceptWork_presentNext _ s), consumeInput_presentNext,
    runCommand_of_ok (decodeTableWord_eq_some_iff.mp h)]

/-- Settles O8, by evaluating the decoder on the eight bytes. -/
theorem tableWordsDecode : Obligations.TableWordsDecode :=
  ⟨rfl, rfl, rfl, rfl, rfl, rfl, rfl, rfl⟩

end Sys2Proof.Machine
end

section
/-! What a command and a step leave of memory, of the input and of the last response (20_memory.md R41 to R45;
44_quantizer_ops.md R164; 60_exceptions.md R180, R181), and the invariant over a step (10_state.md R23, R25). -/
namespace Sys2Proof.Machine

/-! ## What a command does to memory -/

/-- From `s` to `t` no input is consumed, and memory is left or an engine rewrites in place the buffer that may be
written. -/
def MemoryEffect (written : Option BufferId) (s t : State) : Prop :=
  t.input = s.input ∧
    (t.mem = s.mem ∨ ∃ e b, written = some b ∧ rewriteBuffer (qv e) b s.mem = some t.mem)

theorem raise_memoryEffect {e : Error} {w : Option BufferId} {s t : State} (h : raise e s = .next t) :
    MemoryEffect w s t := by
  obtain rfl := raise_eq_next_iff.mp h
  exact ⟨rfl, .inl rfl⟩

theorem complete_memoryEffect {r : Option Result} {w : Option BufferId} {s t : State} (h : complete r s = .next t) :
    MemoryEffect w s t := by
  obtain rfl := complete_eq_next_iff.mp h
  exact ⟨rfl, .inl rfl⟩

theorem withContext_memoryEffect {w : Option BufferId} {s t : State} {k : Context → Host.Outcome State Fault Refusal}
    (hk : ∀ c, k c = .next t → MemoryEffect w s t) (h : withContext s k = .next t) : MemoryEffect w s t := by
  rcases withContext_cases s k with ⟨-, hw⟩ | ⟨c, -, hw⟩
  · exact raise_memoryEffect (hw.symm.trans h)
  · exact hk c (hw.symm.trans h)

theorem withEngine_memoryEffect {w : Option BufferId} {v : Except Error Engine} {s t : State}
    {k : Engine → Host.Outcome State Fault Refusal} (hk : ∀ e, k e = .next t → MemoryEffect w s t)
    (h : withEngine v s k = .next t) : MemoryEffect w s t := by
  rcases withEngine_cases v s k with ⟨e, -, hw⟩ | ⟨e, -, hw⟩
  · exact raise_memoryEffect (hw.symm.trans h)
  · exact hk e (hw.symm.trans h)

theorem answerBound_memoryEffect {b : Triple} {r : Result} {w : Option BufferId} {s t : State}
    (h : answerBound b r s = .next t) : MemoryEffect w s t := by
  rcases le_or_gt b.W 0 with hW | hW
  · exact raise_memoryEffect ((answerBound_nonpos hW r s).symm.trans h)
  · exact complete_memoryEffect ((answerBound_pos hW r s).symm.trans h)

theorem quantizeInPlace_memoryEffect {e : Engine} {x : SampleOperand} {s t : State}
    (h : quantizeInPlace e x s = .next t) : MemoryEffect x.buffer? s t := by
  cases x with
  | scalar | seqRO => exact raise_memoryEffect h
  | seqRW b =>
    have hloop := rewriteBuffer_spec (qv e) b s.mem
    simp only [quantizeInPlace, hloop] at h
    obtain rfl := complete_eq_next_iff.mp h
    exact ⟨rfl, .inr ⟨e, b, rfl, hloop⟩⟩

theorem exec_memoryEffect {i : Instr} {s t : State} (h : exec i s = .next t) : MemoryEffect i.writtenBuffer? s t := by
  cases i with
  | cfg b => exact withEngine_memoryEffect (fun e he => complete_memoryEffect (s := writeContext (contextOf e) s) he) h
  | tosc | touc | tobs | q | desc => exact withContext_memoryEffect (fun _ => complete_memoryEffect) h
  | qs => exact withContext_memoryEffect (fun _ => quantizeInPlace_memoryEffect) h
  | q1 => exact withEngine_memoryEffect (fun _ => complete_memoryEffect) h
  | qs1 => exact withEngine_memoryEffect (fun _ => quantizeInPlace_memoryEffect) h
  | bndMinInt | bndMaxInt | bndRangeInt | bndMinVal | bndMaxVal | bndPrec => exact answerBound_memoryEffect h

/-- Every other buffer keeps its elements. -/
theorem MemoryEffect.buffer_eq {w : Option BufferId} {s t : State} (h : MemoryEffect w s t) {b : BufferId}
    (hb : w ≠ some b) : t.mem.buffer b = s.mem.buffer b := by
  obtain ⟨-, hmem | ⟨e, b', rfl, hloop⟩⟩ := h
  · rw [hmem]
  · obtain ⟨m, hm, -, hother⟩ := rewriteBuffer_buffer (qv e) b' s.mem
    obtain rfl := Option.some.inj (hloop.symm.trans hm)
    exact hother b fun hbb => hb (hbb ▸ rfl)

theorem MemoryEffect.wf {w : Option BufferId} {s t : State} (h : MemoryEffect w s t) (hs : s.mem.wf) : t.mem.wf := by
  obtain ⟨-, hmem | ⟨e, b, -, hloop⟩⟩ := h
  · exact hmem ▸ hs
  · exact rewriteBuffer_wf hs hloop

/-! ## Meanings that do not read the last response -/

/-- The meaning `k` is the same whatever was answered last (R181). -/
def IgnoresResponse (k : State → Host.Outcome State Fault Refusal) : Prop :=
  ∀ (s : State) (r : Option Response), k { s with response := r } = k s

theorem raise_ignoresResponse (e : Error) : IgnoresResponse (raise e) := fun _ _ => rfl

theorem withContext_ignoresResponse {k : Context → State → Host.Outcome State Fault Refusal}
    (hk : ∀ c, IgnoresResponse (k c)) : IgnoresResponse fun s => withContext s fun c => k c s := by
  intro s r
  rcases withContext_cases s fun c => k c s with ⟨hctx, hw⟩ | ⟨c, hctx, hw⟩
  · exact (withContext_none (s := { s with response := r }) hctx _).trans hw.symm
  · exact ((withContext_some (s := { s with response := r }) hctx _).trans (hk c s r)).trans hw.symm

theorem withEngine_ignoresResponse (v : Except Error Engine) {k : Engine → State → Host.Outcome State Fault Refusal}
    (hk : ∀ e, IgnoresResponse (k e)) : IgnoresResponse fun s => withEngine v s fun e => k e s := by
  cases v with
  | error e => exact raise_ignoresResponse e
  | ok e => exact hk e

theorem quantizeInPlace_ignoresResponse (e : Engine) (x : SampleOperand) : IgnoresResponse (quantizeInPlace e x) := by
  cases x with
  | scalar | seqRO => exact raise_ignoresResponse .typeMismatch
  | seqRW b =>
    intro s r
    simp only [quantizeInPlace, rewriteBuffer_spec, complete]

theorem exec_ignoresResponse (i : Instr) : IgnoresResponse (exec i) := by
  cases i with
  | cfg => exact withEngine_ignoresResponse _ fun _ _ _ => rfl
  | tosc | touc | tobs | q | desc => exact withContext_ignoresResponse fun _ _ _ => rfl
  | qs x => exact withContext_ignoresResponse fun c => quantizeInPlace_ignoresResponse c.toEngine x
  | q1 => exact withEngine_ignoresResponse _ fun _ _ _ => rfl
  | qs1 x => exact withEngine_ignoresResponse _ fun e => quantizeInPlace_ignoresResponse e x
  | bndMinInt | bndMaxInt | bndRangeInt | bndMinVal | bndMaxVal | bndPrec => exact fun _ _ => rfl

theorem runCommand_ignoresResponse (c : Command) : IgnoresResponse (runCommand c) := by
  intro s r
  cases hdec : decode c with
  | ok i => rw [runCommand_of_ok hdec, runCommand_of_ok hdec, exec_ignoresResponse]
  | error e => rw [runCommand_of_error hdec, runCommand_of_error hdec]

/-! ## Commands and steps end in a next state -/

/-- A command raises an error or ends with `OK`. -/
theorem exec_eq_next (i : Instr) (s : State) : ∃ t, exec i s = .next t := by
  rcases errorCondition_or_completes i s with ⟨e, he⟩ | ⟨r, u, hok⟩
  · exact ⟨_, exec_of_errorCondition he⟩
  · exact ⟨_, hok⟩

theorem runCommand_eq_next (c : Command) (s : State) : ∃ t, runCommand c s = .next t := by
  cases hdec : decode c with
  | ok i => rw [runCommand_of_ok hdec]; exact exec_eq_next i s
  | error e => exact ⟨_, runCommand_of_error hdec s⟩

theorem step_of_idle {s : State} (h : acceptWork s = .idle) : step s = .next s := by
  simp only [step, h]

theorem step_of_write {s : State} {b : BufferId} {xs : List Sample} (h : acceptWork s = .write b xs) :
    step s = .next (hostWrite b xs (consumeInput s)) := by
  simp only [step, h]

theorem step_of_acceptWork_reset {s : State} (h : acceptWork s = .reset) :
    step s = .next (hostReset (consumeInput s)) := by
  obtain ⟨rest, hinput⟩ := acceptWork_eq_reset_iff.mp h
  exact step_of_reset hinput

/-- What a step does to memory: nothing, a write of the host, or what the command it runs does. -/
theorem step_mem_cases {s t : State} (h : step s = .next t) :
    t.mem = s.mem ∨ (∃ b xs, t.mem = s.mem.store b xs) ∨ ∃ w, MemoryEffect w (consumeInput s) t := by
  cases hw : acceptWork s with
  | idle =>
    obtain rfl := Host.Outcome.next.inj ((step_of_idle hw).symm.trans h)
    exact .inl rfl
  | reset =>
    obtain rfl := Host.Outcome.next.inj ((step_of_acceptWork_reset hw).symm.trans h)
    exact .inl rfl
  | write b xs =>
    obtain rfl := Host.Outcome.next.inj ((step_of_write hw).symm.trans h)
    exact .inr (.inl ⟨b, xs, rfl⟩)
  | run c =>
    rw [step_of_run hw] at h
    cases hdec : decode c with
    | ok i => exact .inr (.inr ⟨_, exec_memoryEffect ((runCommand_of_ok hdec _).symm.trans h)⟩)
    | error e =>
      obtain rfl := Host.Outcome.next.inj ((runCommand_of_error hdec _).symm.trans h)
      exact .inl rfl

/-! ## The invariant -/

/-- Only a positive width validates (41_format_validator.md R102). -/
theorem validate_ok_width {b : Bundle} {e : Engine} (h : validate b = .ok e) : 1 ≤ e.W := by
  rcases le_or_gt b.W 0 with hW | hW
  · simp [validate_of_nonpos hW] at h
  by_cases hp : b.policiesKnown
  · obtain ⟨hovf, hrnd⟩ := hp
    obtain ⟨o, ho⟩ := Option.isSome_iff_exists.mp ((overflowOfCode_isSome_iff b.ovf).mpr hovf)
    obtain ⟨r, hr⟩ := Option.isSome_iff_exists.mp ((roundingOfCode_isSome_iff b.rnd).mpr hrnd)
    obtain rfl := Except.ok.inj ((validate_of_codes hW ho hr).symm.trans h)
    exact hW
  · simp [validate_eq_invalidPolicy hW (not_policiesKnown_iff.mp hp)] at h

theorem contextOf_coherent {e : Engine} (h : 1 ≤ e.W) : (contextOf e).coherent := ⟨h, rfl⟩

theorem step_keeps_mem_wf {s t : State} (hs : s.mem.wf) (h : step s = .next t) : t.mem.wf := by
  rcases step_mem_cases h with hmem | ⟨b, xs, hmem⟩ | ⟨w, heffect⟩
  · exact hmem ▸ hs
  · exact hmem ▸ store_wf hs b xs
  · exact heffect.wf hs

theorem step_keeps_ctx_coherent {s t : State} (hs : ∀ c, s.ctx = some c → c.coherent) (h : step s = .next t) :
    ∀ c, t.ctx = some c → c.coherent := by
  intro c hc
  rcases step_ctx_cases h with hsame | ⟨hnone, -⟩ | ⟨_, b, e, -, -, hv, hctx, -⟩
  · exact hs c (hsame ▸ hc)
  · simp [hnone] at hc
  · obtain rfl := Option.some.inj (hctx.symm.trans hc)
    exact contextOf_coherent (validate_ok_width hv)

/-! ## The statements -/

/-- Settles O47: memory by what a step does to it, the context by the three things a step can do with it. -/
theorem stepKeepsTheInvariant : Obligations.StepKeepsTheInvariant := by
  rintro s t ⟨hmem, hctx⟩ h
  exact ⟨step_keeps_mem_wf hmem h, step_keeps_ctx_coherent hctx h⟩

/-- Settles O38: a command that answers an error met that error's condition, so all it did was to raise it. -/
theorem errorsLeaveNoTrace : Obligations.ErrorsLeaveNoTrace := by
  intro i s t e h hresp
  have hraise := exec_of_errorCondition ((response_eq_err_iff h e).mp hresp)
  exact (raise_eq_next_iff.mp (hraise.symm.trans h)).symm

/-- Settles O41, by the memory effect of each command. -/
theorem onlyTheNamedBufferIsWritten : Obligations.OnlyTheNamedBufferIsWritten := by
  intro i s t h
  have heffect := exec_memoryEffect h
  refine ⟨heffect.1, fun hnone => ?_, fun b k hb => by rw [memRead, memRead, heffect.buffer_eq hb]⟩
  obtain ⟨-, hmem | ⟨e, b, hb, -⟩⟩ := heffect
  · exact hmem
  · simp [hnone] at hb

/-- Settles O42: inside the buffer the write stores a list that is not empty, so it reads back. -/
theorem elementWriteChangesOneElement : Obligations.ElementWriteChangesOneElement := by
  refine fun m b i v => ⟨fun hi => ?_, fun hi => ⟨if_neg (not_lt.mpr hi), List.getElem?_eq_none hi⟩⟩
  have hne : (m.buffer b).set i v ≠ [] := by
    rw [← List.length_pos_iff_ne_nil, List.length_set]
    omega
  have hself := buffer_store_self hne b m
  refine ⟨_, memWrite_eq_some_iff.mpr ⟨hi, rfl⟩, ?_, fun c j hcj => ?_⟩
  · rw [memRead, hself, List.getElem?_set_self hi]
  · by_cases hc : c = b
    · subst hc
      have hij : i ≠ j := fun h => hcj (h ▸ rfl)
      rw [memRead, hself, List.getElem?_set_ne hij, memRead]
    · rw [memRead, memRead, buffer_store_ne hc]

/-- Settles O44: the command run ignores the response, and the host's own events read nothing. -/
theorem stepForgetsTheLastResponse : Obligations.StepForgetsTheLastResponse := by
  intro s r
  have haccept : acceptWork { s with response := r } = acceptWork s := rfl
  cases hw : acceptWork s with
  | idle => exact ⟨_, _, step_of_idle hw, step_of_idle (haccept.trans hw), rfl, rfl, rfl, nofun⟩
  | reset =>
    exact ⟨_, _, step_of_acceptWork_reset hw, step_of_acceptWork_reset (haccept.trans hw), rfl, rfl, rfl, nofun⟩
  | write b xs => exact ⟨_, _, step_of_write hw, step_of_write (haccept.trans hw), rfl, rfl, rfl, nofun⟩
  | run c =>
    obtain ⟨t, ht⟩ := runCommand_eq_next c (consumeInput s)
    refine ⟨t, t, (step_of_run hw).trans ht, ?_, rfl, rfl, rfl, fun _ _ => rfl⟩
    rw [step_of_run (haccept.trans hw), ← ht]
    exact runCommand_ignoresResponse c (consumeInput s) r

/-- Settles O49: every kind of work ends in a next state. -/
theorem everyStepAnswersANextState : Obligations.EveryStepAnswersANextState := by
  intro s
  cases hw : acceptWork s with
  | idle => exact ⟨_, step_of_idle hw⟩
  | reset => exact ⟨_, step_of_acceptWork_reset hw⟩
  | write b xs => exact ⟨_, step_of_write hw⟩
  | run c =>
    obtain ⟨t, ht⟩ := runCommand_eq_next c (consumeInput s)
    exact ⟨t, (step_of_run hw).trans ht⟩

/-- Settles O37, by the table of codes. -/
theorem statusCodesAreTheTables : Obligations.StatusCodesAreTheTables := by
  refine ⟨fun _ => rfl, rfl, rfl, rfl, rfl, rfl, fun r => ?_, fun _ => rfl⟩
  cases r with
  | ok r => rw [status_ok]; decide
  | err e => cases e <;> decide

/-- Settles O45: the reset event clears the context of the state that consumed it, and nothing of memory. -/
theorem resetLeavesNoEngine : Obligations.ResetLeavesNoEngine := by
  refine ⟨rfl, fun s rest hinput => ⟨_, step_of_reset hinput, rfl, rfl, ?_⟩⟩
  rw [hostReset_input, consumeInput_input, hinput, List.tail_cons]

/-- Settles O46: an idle step, and a store in canonical memory, where an empty write reads back too. -/
theorem hostSideStepsLeaveTheBlock : Obligations.HostSideStepsLeaveTheBlock := by
  refine ⟨fun s hinput => step_of_idle (by simp only [acceptWork, hinput]), fun s b xs rest hinv hinput => ?_⟩
  obtain ⟨hmem, -⟩ := hinv
  refine ⟨s.mem.store b xs, ?_, buffer_store_self_of_wf hmem b xs, fun b' hne => buffer_store_ne hne xs s.mem⟩
  rw [step_of_write (b := b) (xs := xs) (by simp only [acceptWork, hinput]), consumeInput_of_cons hinput, hostWrite]

/-- Settles O48: the canonical memory of the reset state; there is no context. -/
theorem resetMeetsTheInvariant : Obligations.ResetMeetsTheInvariant := by
  have hctx : State.reset.ctx = none := rfl
  exact ⟨reset_mem_wf, by simp [hctx]⟩

end Sys2Proof.Machine
end

section
/-! The ranges of the overflow unit's value, of the signed and the unsigned code, and what follows for bit strings,
result ports and quantizing again (42_overflow_saturation_unit.md section 4; 43_rounding_engine.md R133, R134;
44_quantizer_ops.md section 4). -/
namespace Sys2Proof.Machine

/-! ## The bounds of a positive width -/

theorem maxInt_nonneg (S : Bool) (W : Int) : 0 ≤ maxInt S W := by
  cases S with
  | false =>
    have hpos := modulus_pos W
    rw [maxInt_false]
    omega
  | true => exact sub_nonneg.mpr (one_le_pow₀ one_le_two)

theorem minInt_of_unsigned {e : Engine} (hS : e.S = false) : minInt e.S e.W = 0 := by rw [hS, minInt_false]

/-- The modulus is one more than the range (R83, R84). -/
theorem modulus_eq {W : Int} (S : Bool) (hW : 1 ≤ W) : modulus W = maxInt S W - minInt S W + 1 := by
  rw [modulus_eq_rangeInt_add_one S hW, rangeInt]

theorem modulus_eq_cast {W : Int} (S : Bool) (hW : 1 ≤ W) :
    (modulus W : ℚ) = maxInt S W - minInt S W + 1 := by
  exact_mod_cast modulus_eq S hW

theorem minInt_le_maxInt (S : Bool) (W : Int) : minInt S W ≤ maxInt S W :=
  (minInt_nonpos S W).trans (maxInt_nonneg S W)

theorem two_le_modulus {W : Int} (hW : 1 ≤ W) : 2 ≤ modulus W := by
  obtain ⟨w, rfl⟩ := exists_width_succ hW
  have := one_le_pow₀ (n := w) one_le_two (M₀ := Int)
  rw [modulus_succ]
  omega

theorem minInt_lt_maxInt (S : Bool) {W : Int} (hW : 1 ≤ W) : minInt S W < maxInt S W := by
  have hM := modulus_eq S hW
  have h2 := two_le_modulus hW
  omega

/-! ## The value of the overflow unit -/

/-- Less than one below a signed format's range the residue is one modulus up (R112). -/
theorem residue_of_neg {W : Int} {raw : ℚ} (hlo : -(modulus W : ℚ) ≤ raw) (hneg : raw < 0) :
    residue W raw = raw + modulus W := by
  have hpos : (0 : ℚ) < modulus W := Int.cast_pos.mpr (modulus_pos W)
  have hquot : floorQ (raw / modulus W) = -1 := by
    refine floorQ_eq_iff.mpr ⟨?_, ?_⟩
    · rw [le_div_iff₀ hpos]; push_cast; linarith
    · rw [div_lt_iff₀ hpos]; push_cast; linarith
  rw [residue, fmod, hquot]
  push_cast
  ring

/-- Under `Wrap` an unsigned value is the residue. -/
theorem ovf_of_wrap_unsigned {e : Engine} (hwrap : e.OVF = .wrap) (hS : e.S = false) (x : Sample) :
    ovf e x = residue e.W (scale e.F x) := by
  simp [ovf_of_wrap hwrap, wrapStep, hS]

/-- Under `Wrap` a signed value is the residue where that is at most `maxInt`, and one modulus less above (R113). -/
theorem ovf_of_wrap_signed_cases {e : Engine} (hwrap : e.OVF = .wrap) (hS : e.S = true) (x : Sample) :
    (residue e.W (scale e.F x) ≤ maxInt e.S e.W ∧ ovf e x = residue e.W (scale e.F x)) ∨
    ((maxInt e.S e.W : ℚ) < residue e.W (scale e.F x) ∧
      ovf e x = residue e.W (scale e.F x) - modulus e.W) := by
  rw [ovf_of_wrap hwrap, wrapStep]
  split_ifs with h
  · exact .inr ⟨h.2, rfl⟩
  · exact .inl ⟨not_lt.mp fun hlt => h ⟨hS, hlt⟩, rfl⟩

/-- Under `Saturate` the value lies within the bounds. -/
theorem ovf_of_saturate_mem {e : Engine} (hsat : e.OVF = .saturate) (x : Sample) :
    (minInt e.S e.W : ℚ) ≤ ovf e x ∧ ovf e x ≤ maxInt e.S e.W := by
  rw [ovf_of_saturate hsat]
  exact clamp_mem (minInt_le_maxInt e.S e.W)

/-- A negative signed value less than one below the minimum passes `Wrap` unchanged (R117). -/
theorem ovf_of_wrap_of_neg {e : Engine} {x : Sample} (hW : 1 ≤ e.W) (hwrap : e.OVF = .wrap) (hS : e.S = true)
    (hlo : (minInt e.S e.W : ℚ) - 1 < scale e.F x) (hneg : scale e.F x < 0) : ovf e x = scale e.F x := by
  have hM := modulus_eq_cast e.S hW
  have hmax : (0 : ℚ) ≤ maxInt e.S e.W := Int.cast_nonneg (maxInt_nonneg e.S e.W)
  have hres := residue_of_neg (W := e.W) (by linarith) hneg
  rcases ovf_of_wrap_signed_cases hwrap hS x with ⟨hle, -⟩ | ⟨-, hovf⟩
  · linarith
  · linarith

/-- A scaled value in the format's range passes the unit unchanged (R117). -/
theorem ovf_of_mem_range {e : Engine} {x : Sample} (hW : 1 ≤ e.W) (hlo : (minInt e.S e.W : ℚ) ≤ scale e.F x)
    (hhi : scale e.F x ≤ maxInt e.S e.W) : ovf e x = scale e.F x := by
  cases hovf : e.OVF with
  | saturate => rw [ovf_of_saturate hovf, saturateStep, clamp, if_neg (not_lt.mpr hlo), if_neg (not_lt.mpr hhi)]
  | wrap =>
    rcases le_or_gt 0 (scale e.F x) with hnonneg | hneg
    · rw [ovf_of_wrap hovf, wrapStep_of_nonneg_of_le_maxInt hW hnonneg hhi]
    · cases hS : e.S with
      | false =>
        rw [hS, minInt_false, Int.cast_zero] at hlo
        exact absurd hlo (not_le.mpr hneg)
      | true => exact ovf_of_wrap_of_neg hW hovf hS (by linarith) hneg

/-! ## Rounding moves a value by less than one -/

theorem rnd_near (p : RoundingPolicy) (v : ℚ) : v - 1 < rnd p v ∧ (rnd p v : ℚ) < v + 1 := by
  have hfloor : v - 1 < floorQ v ∧ (floorQ v : ℚ) < v + 1 :=
    ⟨sub_lt_iff_lt_add.mpr (lt_floorQ_add_one v), (floorQ_le v).trans_lt (lt_add_one v)⟩
  have hceil : v - 1 < ceilQ v ∧ (ceilQ v : ℚ) < v + 1 :=
    ⟨(sub_one_lt v).trans_le (Int.le_ceil v), Int.ceil_lt_add_one v⟩
  cases p with
  | truncate | floor => exact hfloor
  | ceil => exact hceil
  | nearestAwayFromZero =>
    obtain ⟨hlo, hhi⟩ := abs_le.mp (rha_nearest v).1
    rw [rnd_nearestAwayFromZero]
    exact ⟨by linarith, by linarith⟩
  | towardZero =>
    rw [rnd_towardZero, rtz_eq_ite]
    split_ifs
    · exact hfloor
    · exact hceil

/-- No rounding passes an integer bound from above. -/
theorem le_rnd {p : RoundingPolicy} {v : ℚ} {z : Int} (h : (z : ℚ) ≤ v) : z ≤ rnd p v := by
  have hnear := (rnd_near p v).1
  have hlt : ((z - 1 : Int) : ℚ) < rnd p v := by push_cast; linarith
  have := Int.cast_lt.mp hlt
  omega

/-- No rounding passes an integer bound from below. -/
theorem rnd_le {p : RoundingPolicy} {v : ℚ} {z : Int} (h : v ≤ z) : rnd p v ≤ z := by
  have hnear := (rnd_near p v).2
  have hlt : (rnd p v : ℚ) < (z + 1 : Int) := by push_cast; linarith
  have := Int.cast_lt.mp hlt
  omega

theorem rnd_intCast (p : RoundingPolicy) (z : Int) : rnd p z = z := le_antisymm (rnd_le le_rfl) (le_rnd le_rfl)

/-- A value within the bounds is rounded to a code in range. -/
theorem sc_inRange_of_ovf_mem {e : Engine} {x : Sample} (hlo : (minInt e.S e.W : ℚ) ≤ ovf e x)
    (hhi : ovf e x ≤ maxInt e.S e.W) : e.inRange (sc e x) := ⟨le_rnd hlo, rnd_le hhi⟩

theorem sc_inRange_of_saturate {e : Engine} (hsat : e.OVF = .saturate) (x : Sample) : e.inRange (sc e x) := by
  obtain ⟨hlo, hhi⟩ := ovf_of_saturate_mem hsat x
  exact sc_inRange_of_ovf_mem hlo hhi

/-! ## The signed code under `Wrap` -/

section Unsigned

variable {e : Engine} (hW : 1 ≤ e.W) (hwrap : e.OVF = .wrap) (hS : e.S = false) (x : Sample)
include hW hwrap hS

/-- The unsigned residue is below the first integer above the range. -/
theorem ovf_unsigned_mem : 0 ≤ ovf e x ∧ ovf e x < maxInt e.S e.W + 1 := by
  have hM := modulus_eq_cast e.S hW
  rw [hS, minInt_false, ← hS, Int.cast_zero, sub_zero] at hM
  rw [ovf_of_wrap_unsigned hwrap hS, ← hM]
  exact residue_mem_range e.W _

theorem sc_unsigned_mem : 0 ≤ sc e x ∧ sc e x ≤ maxInt e.S e.W + 1 := by
  obtain ⟨hlo, hhi⟩ := ovf_unsigned_mem hW hwrap hS x
  exact ⟨le_rnd (by simpa using hlo), rnd_le (by push_cast; exact hhi.le)⟩

/-- Rounding down keeps the residue below the modulus. -/
theorem sc_unsigned_inRange_of_floor (hrnd : e.RND ∈ [.truncate, .floor, .towardZero]) : e.inRange (sc e x) := by
  obtain ⟨hlo, hhi⟩ := ovf_unsigned_mem hW hwrap hS x
  have hcode : sc e x = floorQ (ovf e x) := by
    simp only [List.mem_cons, List.not_mem_nil, or_false] at hrnd
    rcases hrnd with hrnd | hrnd | hrnd
    · rw [sc, hrnd, rnd_truncate]
    · rw [sc, hrnd, rnd_floor]
    · rw [sc, hrnd, rnd_towardZero, rtz, if_pos hlo]
  have hlt : floorQ (ovf e x) < maxInt e.S e.W + 1 := Int.floor_lt.mpr (by push_cast; exact hhi)
  refine ⟨?_, by omega⟩
  rw [hS, minInt_false]
  exact (sc_unsigned_mem hW hwrap hS x).1

theorem sc_unsigned_ceil_eq_iff (hrnd : e.RND = .ceil) :
    sc e x = maxInt e.S e.W + 1 ↔ (maxInt e.S e.W : ℚ) < residue e.W (scale e.F x) := by
  obtain ⟨-, hhi⟩ := ovf_unsigned_mem hW hwrap hS x
  rw [sc, hrnd, rnd_ceil, ceilQ_eq_iff, ← ovf_of_wrap_unsigned hwrap hS]
  push_cast
  constructor
  · rintro ⟨hlt, -⟩; linarith
  · exact fun hlt => ⟨by linarith, hhi.le⟩

theorem sc_unsigned_nearest_eq_iff (hrnd : e.RND = .nearestAwayFromZero) :
    sc e x = maxInt e.S e.W + 1 ↔ (maxInt e.S e.W : ℚ) + 1 / 2 ≤ residue e.W (scale e.F x) := by
  obtain ⟨hlo, hhi⟩ := ovf_unsigned_mem hW hwrap hS x
  rw [sc, hrnd, rnd_nearestAwayFromZero, rha_eq_iff, if_pos hlo, ← ovf_of_wrap_unsigned hwrap hS]
  push_cast
  constructor
  · rintro ⟨hle, -⟩; linarith
  · exact fun hle => ⟨by linarith, by linarith⟩

end Unsigned

section Signed

variable {e : Engine} (hW : 1 ≤ e.W) (hwrap : e.OVF = .wrap) (hS : e.S = true) (x : Sample)
include hW hwrap hS

/-- Under signed `Wrap`: a residue up to `maxInt` is the value, and in range; one above it gives a negative value
above `minInt - 1`, `minInt + (residue - (maxInt + 1))`. -/
theorem ovf_signed_cases :
    (residue e.W (scale e.F x) ≤ maxInt e.S e.W ∧ 0 ≤ ovf e x ∧ ovf e x ≤ maxInt e.S e.W) ∨
    ((maxInt e.S e.W : ℚ) < residue e.W (scale e.F x) ∧ ovf e x < 0 ∧ (minInt e.S e.W : ℚ) - 1 < ovf e x ∧
      ovf e x = minInt e.S e.W + (residue e.W (scale e.F x) - (maxInt e.S e.W + 1))) := by
  have hM := modulus_eq_cast e.S hW
  obtain ⟨hres, hlt⟩ := residue_mem_range e.W (scale e.F x)
  rcases ovf_of_wrap_signed_cases hwrap hS x with ⟨hle, hovf⟩ | ⟨hgt, hovf⟩
  · exact .inl ⟨hle, by linarith, by linarith⟩
  · exact .inr ⟨hgt, by linarith, by linarith, by linarith⟩

theorem sc_signed_mem : minInt e.S e.W - 1 ≤ sc e x ∧ sc e x ≤ maxInt e.S e.W := by
  have hmin : (minInt e.S e.W : ℚ) ≤ 0 := Int.cast_nonpos.mpr (minInt_nonpos e.S e.W)
  have hmax : (0 : ℚ) ≤ maxInt e.S e.W := Int.cast_nonneg (maxInt_nonneg e.S e.W)
  rcases ovf_signed_cases hW hwrap hS x with ⟨-, hlo, hhi⟩ | ⟨-, hneg, hlo, -⟩
  · exact ⟨le_rnd (by push_cast; linarith), rnd_le hhi⟩
  · exact ⟨le_rnd (by push_cast; linarith), rnd_le (by linarith)⟩

/-- Where the residue is at most `maxInt` the code is in range under every rounding. -/
theorem sc_signed_inRange_of_residue_le (hle : residue e.W (scale e.F x) ≤ maxInt e.S e.W) :
    e.inRange (sc e x) := by
  have hmin : (minInt e.S e.W : ℚ) ≤ 0 := Int.cast_nonpos.mpr (minInt_nonpos e.S e.W)
  rcases ovf_signed_cases hW hwrap hS x with ⟨-, hlo, hhi⟩ | ⟨hgt, -⟩
  · exact sc_inRange_of_ovf_mem (hmin.trans hlo) hhi
  · exact absurd hle (not_le.mpr hgt)

/-- Rounding up brings a value above `minInt - 1` into the range. -/
theorem sc_signed_inRange_of_ceil (hrnd : e.RND ∈ [.ceil, .towardZero]) : e.inRange (sc e x) := by
  rcases ovf_signed_cases hW hwrap hS x with ⟨hle, -⟩ | ⟨-, hneg, hlo, -⟩
  · exact sc_signed_inRange_of_residue_le hW hwrap hS x hle
  · have hcode : sc e x = ceilQ (ovf e x) := by
      simp only [List.mem_cons, List.not_mem_nil, or_false] at hrnd
      rcases hrnd with hrnd | hrnd
      · rw [sc, hrnd, rnd_ceil]
      · rw [sc, hrnd, rnd_towardZero, rtz_eq_ite, if_neg (not_le.mpr hneg), ceilQ]
    have hlt : minInt e.S e.W - 1 < ceilQ (ovf e x) := Int.lt_ceil.mpr (by push_cast; exact hlo)
    exact ⟨by omega, (sc_signed_mem hW hwrap hS x).2⟩

theorem sc_signed_floor_eq_iff (hrnd : e.RND ∈ [.truncate, .floor]) :
    sc e x = minInt e.S e.W - 1 ↔
      (maxInt e.S e.W : ℚ) < residue e.W (scale e.F x) ∧ residue e.W (scale e.F x) < maxInt e.S e.W + 1 := by
  rcases ovf_signed_cases hW hwrap hS x with ⟨hle, -⟩ | ⟨hgt, -, hlo, hovf⟩
  · obtain ⟨hin, -⟩ := sc_signed_inRange_of_residue_le hW hwrap hS x hle
    exact ⟨fun h => by omega, fun h => absurd hle (not_le.mpr h.1)⟩
  · have hcode : sc e x = floorQ (ovf e x) := by
      simp only [List.mem_cons, List.not_mem_nil, or_false] at hrnd
      rcases hrnd with hrnd | hrnd <;> rw [sc, hrnd] <;> rfl
    rw [hcode, floorQ_eq_iff]
    push_cast
    constructor
    · rintro ⟨-, hlt⟩; exact ⟨hgt, by linarith⟩
    · rintro ⟨-, hlt⟩; exact ⟨hlo.le, by linarith⟩

theorem sc_signed_nearest_eq_iff (hrnd : e.RND = .nearestAwayFromZero) :
    sc e x = minInt e.S e.W - 1 ↔
      (maxInt e.S e.W : ℚ) < residue e.W (scale e.F x) ∧ residue e.W (scale e.F x) ≤ maxInt e.S e.W + 1 / 2 := by
  rcases ovf_signed_cases hW hwrap hS x with ⟨hle, -⟩ | ⟨hgt, hneg, hlo, hovf⟩
  · obtain ⟨hin, -⟩ := sc_signed_inRange_of_residue_le hW hwrap hS x hle
    exact ⟨fun h => by omega, fun h => absurd hle (not_le.mpr h.1)⟩
  · rw [sc, hrnd, rnd_nearestAwayFromZero, rha_eq_iff, if_neg (not_le.mpr hneg)]
    push_cast
    constructor
    · rintro ⟨-, hle⟩; exact ⟨hgt, by linarith⟩
    · rintro ⟨-, hle⟩; exact ⟨by linarith, by linarith⟩

end Signed

/-! ## The codes of every engine -/

/-- Whatever the policies, an unsigned code is at most one above the range and a signed one at most one below it. -/
theorem sc_mem (e : Engine) (x : Sample) (hW : 1 ≤ e.W) :
    (e.S = false ∧ 0 ≤ sc e x ∧ sc e x ≤ maxInt e.S e.W + 1) ∨
    (e.S = true ∧ minInt e.S e.W - 1 ≤ sc e x ∧ sc e x ≤ maxInt e.S e.W) := by
  cases hovf : e.OVF with
  | saturate =>
    obtain ⟨hlo, hhi⟩ := sc_inRange_of_saturate hovf x
    rcases Bool.eq_false_or_eq_true e.S with hS | hS
    · exact .inr ⟨hS, by omega, hhi⟩
    · have hzero := minInt_of_unsigned hS
      exact .inl ⟨hS, by omega, by omega⟩
  | wrap =>
    rcases Bool.eq_false_or_eq_true e.S with hS | hS
    · exact .inr ⟨hS, sc_signed_mem hW hovf hS x⟩
    · exact .inl ⟨hS, sc_unsigned_mem hW hovf hS x⟩

/-- The code one above the range: unsigned `Wrap` with a rounding that goes up (R134). -/
theorem sc_eq_maxInt_add_one_iff {e : Engine} {x : Sample} (hW : 1 ≤ e.W) (hS : e.S = false) :
    sc e x = maxInt e.S e.W + 1 ↔ e.OVF = .wrap ∧
      ((e.RND = .ceil ∧ (maxInt e.S e.W : ℚ) < residue e.W (scale e.F x)) ∨
        (e.RND = .nearestAwayFromZero ∧ (maxInt e.S e.W : ℚ) + 1 / 2 ≤ residue e.W (scale e.F x))) := by
  have hin : e.inRange (sc e x) → sc e x ≠ maxInt e.S e.W + 1 := fun h => by have := h.2; omega
  cases hovf : e.OVF with
  | saturate => simp [hin (sc_inRange_of_saturate hovf x)]
  | wrap =>
    cases hrnd : e.RND with
    | truncate | floor | towardZero =>
      simp [hin (sc_unsigned_inRange_of_floor hW hovf hS x (by simp [hrnd]))]
    | ceil => simp [sc_unsigned_ceil_eq_iff hW hovf hS x hrnd]
    | nearestAwayFromZero => simp [sc_unsigned_nearest_eq_iff hW hovf hS x hrnd]

/-- An in-range integer is its own code (R117, R133). -/
theorem sc_of_scale_eq {e : Engine} {x : Sample} {z : Int} (hW : 1 ≤ e.W) (hz : scale e.F x = z)
    (hin : e.inRange z) : sc e x = z := by
  obtain ⟨hlo, hhi⟩ := hin
  have hovf : ovf e x = z :=
    (ovf_of_mem_range hW (hz ▸ Int.cast_le.mpr hlo) (hz ▸ Int.cast_le.mpr hhi)).trans hz
  rw [sc, hovf, rnd_intCast]

theorem scale_qv (e : Engine) (x : Sample) : scale e.F (qv e x) = sc e x := by
  rw [scale_eq_zpow, qv_mul_zpow]

/-- Where the code is in range, quantizing the value gives the value (R155). -/
theorem qv_qv_of_inRange {e : Engine} {x : Sample} (hW : 1 ≤ e.W) (h : e.inRange (sc e x)) :
    qv e (qv e x) = qv e x := by
  rw [qv, sc_of_scale_eq hW (scale_qv e x) h, qv]

/-! ## The unsigned code -/

/-- The mapping of a code that leaves the range by one at most (R143): up to the modulus, which only the code above an
unsigned range gives. -/
theorem uc_mem (e : Engine) (x : Sample) (hW : 1 ≤ e.W) :
    0 ≤ uc e x ∧ uc e x ≤ modulus e.W ∧ (uc e x = modulus e.W ↔ e.S = false ∧ sc e x = maxInt e.S e.W + 1) := by
  have hM := modulus_eq e.S hW
  have hmax := maxInt_nonneg e.S e.W
  have hmin := minInt_nonpos e.S e.W
  rw [uc, unsignedOf]
  rcases sc_mem e x hW with ⟨hS, hlo, hhi⟩ | ⟨hS, hlo, hhi⟩
  · have hzero := minInt_of_unsigned hS
    rw [if_neg (not_lt.mpr hlo)]
    exact ⟨hlo, by omega, fun h => ⟨hS, by omega⟩, fun ⟨_, h⟩ => by omega⟩
  · have hlt := minInt_lt_maxInt e.S hW
    have hsigned : e.S ≠ false := by simp [hS]
    split_ifs with hneg
    · exact ⟨by omega, by omega, fun h => by omega, fun h => absurd h.1 hsigned⟩
    · exact ⟨by omega, by omega, fun h => by omega, fun h => absurd h.1 hsigned⟩

/-! ## The bit string as a two's-complement pattern -/

/-- Modulo `2^W` the two codes are the same. -/
theorem uc_emod (e : Engine) (x : Sample) : uc e x % modulus e.W = sc e x % modulus e.W := by
  rw [uc, unsignedOf]
  split_ifs
  · rw [Int.add_emod_right]
  · rfl

theorem bs_eq_lowDigits (e : Engine) (x : Sample) : bs e x = lowDigits (sc e x % modulus e.W) e.W.toNat := by
  rw [bs, bitText_eq_lowDigits, uc_emod]

theorem patternCode_false (ds : BitText) : patternCode false ds = unsignedWeight ds := by
  cases ds <;> simp [patternCode, unsignedWeight]

/-- The sign digit weighs a whole `2^(n+1)` less than it does unsigned (R75). -/
theorem patternCode_true_lowDigits (v : Int) (n : Nat) :
    patternCode true (lowDigits v (n + 1)) = v % 2 ^ (n + 1) - 2 ^ (n + 1) * (v / 2 ^ n % 2) := by
  rw [lowDigits_succ, patternCode, unsignedWeight_lowDigits, length_lowDigits, emod_two_pow_succ, pow_succ]
  rcases Int.emod_two_eq (v / 2 ^ n) with hbit | hbit <;> simp [bitOf, hbit]
  ring

theorem patternCode_unsigned {W c : Int} (hlo : 0 ≤ c) (hhi : c < modulus W) :
    patternCode false (lowDigits (c % modulus W) W.toNat) = c := by
  rw [patternCode_false, unsignedWeight_lowDigits, Int.emod_eq_of_lt hlo hhi]
  exact Int.emod_eq_of_lt hlo hhi

theorem patternCode_signed {w : Nat} {c : Int} (hlo : -2 ^ w ≤ c) (hhi : c < 2 ^ w) :
    patternCode true (lowDigits (c % 2 ^ (w + 1)) (w + 1)) = c := by
  have hpos : (0 : Int) < 2 ^ w := by positivity
  rw [patternCode_true_lowDigits, Int.emod_emod]
  rcases le_or_gt 0 c with hnonneg | hneg
  · have hmod : c % 2 ^ (w + 1) = c := Int.emod_eq_of_lt hnonneg (by rw [pow_succ]; omega)
    rw [hmod, Int.ediv_eq_zero_of_lt hnonneg hhi]
    simp
  · have hmod : c % 2 ^ (w + 1) = c + 2 ^ (w + 1) := by
      rw [← Int.add_emod_right]
      exact Int.emod_eq_of_lt (by rw [pow_succ]; omega) (by omega)
    have hbit : (c + 2 ^ (w + 1)) / 2 ^ w = 1 :=
      Int.ediv_eq_iff_of_pos hpos |>.mpr ⟨by rw [pow_succ]; omega, by rw [pow_succ]; omega⟩
    rw [hmod, hbit]
    norm_num

/-! ## The result ports -/

/-- Two spare bits are enough for a code one outside the range on either side (R66). -/
theorem sc_fits_port {e : Engine} (x : Sample) (hW : 1 ≤ e.W) : fitsField (e.W.toNat + 2) (sc e x) = true := by
  have hM := modulus_eq e.S hW
  have h2 := two_le_modulus hW
  have hmax := maxInt_nonneg e.S e.W
  have hmin := minInt_nonpos e.S e.W
  have hpow : (2 : Int) ^ (e.W.toNat + 2) = 4 * modulus e.W := by rw [pow_add, modulus]; ring
  simp only [fitsField, Bool.and_eq_true, decide_eq_true_eq, hpow]
  rcases sc_mem e x hW with ⟨-, hlo, hhi⟩ | ⟨-, hlo, hhi⟩
  · exact ⟨by omega, by omega⟩
  · exact ⟨by omega, by omega⟩

/-- One spare bit is enough for the code `2^W` (R67). -/
theorem unsignedCodePort_toNat {W u : Int} (hlo : 0 ≤ u) (hhi : u ≤ modulus W) :
    ((unsignedCodePort W.toNat u).toNat : Int) = u := by
  have hpos := modulus_pos W
  have hpow : (2 : Int) ^ (W.toNat + 1) = 2 * modulus W := pow_succ' 2 _
  rw [unsignedCodePort, BitVec.toNat_ofInt, Nat.cast_pow, Nat.cast_ofNat, hpow,
    Int.emod_eq_of_lt hlo (by omega), Int.toNat_of_nonneg hlo]

/-! ## The statements -/

/-- Settles O11: the bounds in units of the precision, and the modulus as one more than the range. -/
theorem boundsInvariantsHold : Obligations.BoundsInvariantsHold := by
  intro S W F hW
  have hprec := (precision_pos F).le
  have hmin := minInt_nonpos S W
  have hmax := maxInt_nonneg S W
  refine ⟨rfl, minValue_eq_mul_precision S W F, maxValue_eq_mul_precision S W F, precision_eq_zpow F, hmin, hmax,
    minInt_lt_maxInt S hW, ?_, ?_, (modulus_eq S hW).symm⟩
  · rw [minValue_eq_mul_precision]
    exact mul_nonpos_of_nonpos_of_nonneg (Int.cast_nonpos.mpr hmin) hprec
  · rw [maxValue_eq_mul_precision]
    exact mul_nonneg (Int.cast_nonneg hmax) hprec

/-- Settles O16: the value of `Wrap` is the residue, or in a signed format one modulus less above `maxInt`. -/
theorem overflowUnitRange : Obligations.OverflowUnitRange := by
  intro e x hW res lo hi
  have hlo : lo ≤ 0 := Int.cast_nonpos.mpr (minInt_nonpos e.S e.W)
  refine ⟨fun hwrap hS => ?unsigned, fun hwrap hS => ?signed, fun hwrap => ?outside, fun hsat =>
    ovf_of_saturate_mem hsat x⟩
  case unsigned => exact ovf_of_wrap_unsigned hwrap hS x ▸ residue_mem_range e.W (scale e.F x)
  case signed =>
    rcases ovf_signed_cases hW hwrap hS x with ⟨-, hin⟩ | ⟨-, hneg, hgt, -⟩
    · exact .inl hin
    · exact .inr ⟨hgt, hneg⟩
  case outside =>
    rcases Bool.eq_false_or_eq_true e.S with hS | hS
    · have hhi : 0 ≤ hi := Int.cast_nonneg (maxInt_nonneg e.S e.W)
      rcases ovf_signed_cases hW hwrap hS x with ⟨hle, hin⟩ | ⟨hgt, hneg, -, hovf⟩
      · exact ⟨fun hout => absurd ⟨hlo.trans hin.1, hin.2⟩ hout, fun h => absurd hle (not_le.mpr h.1)⟩
      · refine ⟨fun hout => ⟨hgt, not_le.mp fun hle => hout ⟨?_, ?_⟩⟩, fun h hin => ?_⟩ <;> linarith
    · obtain ⟨hnonneg, hlt⟩ := ovf_unsigned_mem hW hwrap hS x
      have hovf : ovf e x = res := ovf_of_wrap_unsigned hwrap hS x
      rw [hovf] at hnonneg hlt ⊢
      exact ⟨fun hout => ⟨not_le.mp fun hle => hout ⟨hlo.trans hnonneg, hle⟩, hlt⟩,
        fun h hin => absurd hin.2 (not_le.mpr h.1)⟩

/-- Settles O17: an in-range value, and a negative one whose residue is one modulus up. -/
theorem inRangeValuesPassUnchanged : Obligations.InRangeValuesPassUnchanged :=
  fun _ _ hW => ⟨ovf_of_mem_range hW, ovf_of_wrap_of_neg hW⟩

/-- Settles O20: a rounding moves a value by less than one, and an in-range value passes the overflow unit. -/
theorem inRangeIntegersAreTheirOwnCode : Obligations.InRangeIntegersAreTheirOwnCode :=
  ⟨rnd_intCast, fun _ _ _ => sc_of_scale_eq⟩

/-- Settles O21: one lemma for each row of R134. -/
theorem signedCodeRangeByPolicy : Obligations.SignedCodeRangeByPolicy := by
  intro e x hW res hi
  refine ⟨fun hsat => sc_inRange_of_saturate hsat x,
    fun hwrap hS hrnd => sc_unsigned_inRange_of_floor hW hwrap hS x hrnd,
    fun hwrap hS hrnd => ?ceil, fun hwrap hS hrnd => ?nearest,
    fun hwrap hS hrnd => sc_signed_inRange_of_ceil hW hwrap hS x hrnd,
    fun hwrap hS hrnd => ?floor, fun hwrap hS hrnd => ?nearestSigned⟩
  case ceil =>
    obtain ⟨hlo, hhi⟩ := sc_unsigned_mem hW hwrap hS x
    exact ⟨hlo, hhi, sc_unsigned_ceil_eq_iff hW hwrap hS x hrnd⟩
  case nearest =>
    obtain ⟨hlo, hhi⟩ := sc_unsigned_mem hW hwrap hS x
    exact ⟨hlo, hhi, sc_unsigned_nearest_eq_iff hW hwrap hS x hrnd⟩
  case floor =>
    obtain ⟨hlo, hhi⟩ := sc_signed_mem hW hwrap hS x
    exact ⟨hlo, hhi, sc_signed_floor_eq_iff hW hwrap hS x hrnd⟩
  case nearestSigned =>
    obtain ⟨hlo, hhi⟩ := sc_signed_mem hW hwrap hS x
    exact ⟨hlo, hhi, sc_signed_nearest_eq_iff hW hwrap hS x hrnd⟩

/-- Settles O22: the mapping by its definition, and `2^W` as the code one above an unsigned range. -/
theorem unsignedCodeMappingAndRange : Obligations.UnsignedCodeMappingAndRange := by
  intro e x hW M res hi
  obtain ⟨hlo, hhi, hmax⟩ := uc_mem e x hW
  exact ⟨rfl, hlo, hhi, hmax.trans (and_congr_right fun hS => sc_eq_maxInt_add_one_iff hW hS)⟩

/-- Settles O24: the digits are those of the signed code modulo `2^W`, whose sign digit takes the modulus off again. -/
theorem bitStringIsTwosComplementInRange : Obligations.BitStringIsTwosComplementInRange := by
  rintro e x hW ⟨hlo, hhi⟩
  rw [bs_eq_lowDigits]
  cases hS : e.S with
  | false =>
    rw [hS, minInt_false] at hlo
    rw [hS, maxInt_false] at hhi
    exact patternCode_unsigned hlo (by omega)
  | true =>
    obtain ⟨w, hw⟩ := exists_width_succ hW
    have hwidth : e.W.toNat = w + 1 := by omega
    rw [hS, hw, minInt_true] at hlo
    rw [hS, hw, maxInt_true] at hhi
    rw [modulus, hwidth]
    exact patternCode_signed hlo (by omega)

/-- Settles O26: the ranges of the two codes fit their ports. -/
theorem resultPortsCarryEveryCode : Obligations.ResultPortsCarryEveryCode := by
  intro e x hW
  obtain ⟨hlo, hhi, -⟩ := uc_mem e x hW
  exact ⟨s2_ofInt (sc_fits_port x hW), unsignedCodePort_toNat hlo hhi⟩

/-- Settles O27: the listed engines give codes in range for every sample. -/
theorem quantizeIsIdempotentInRange : Obligations.QuantizeIsIdempotentInRange := by
  refine fun e x hW => ⟨qv_qv_of_inRange hW, fun hlisted => qv_qv_of_inRange hW ?_⟩
  cases hovf : e.OVF with
  | saturate => exact sc_inRange_of_saturate hovf x
  | wrap =>
    rcases hlisted with hsat | ⟨hS, hrnd⟩ | ⟨hS, hrnd⟩
    · simp [hovf] at hsat
    · exact sc_unsigned_inRange_of_floor hW hovf hS x hrnd
    · exact sc_signed_inRange_of_ceil hW hovf hS x hrnd

/-- Settles O28: the code is in range, and code and bounds are divided by the same positive `2^F`. -/
theorem saturatedValuesStayWithinBounds : Obligations.SaturatedValuesStayWithinBounds := by
  intro e x _ hsat
  obtain ⟨hlo, hhi⟩ := sc_inRange_of_saturate hsat x
  have hpos := (pow2_pos e.F).le
  exact ⟨div_le_div_of_nonneg_right (Int.cast_le.mpr hlo) hpos, div_le_div_of_nonneg_right (Int.cast_le.mpr hhi) hpos⟩

end Sys2Proof.Machine
end

section
/-! The commands on samples (44_quantizer_ops.md R141 to R152): the conversions element by element, `QS1` as a transient
engine in place, and a second saturating `QS`. -/
namespace Sys2Proof.Machine

/-! ## The code of 0 -/

/-- The overflow unit leaves 0, whatever the engine. -/
theorem ovf_zero (e : Engine) : ovf e 0 = 0 := by
  have hscale : scale e.F 0 = 0 := zero_mul _
  have hmax : (0 : ℚ) ≤ maxInt e.S e.W := Int.cast_nonneg (maxInt_nonneg e.S e.W)
  cases hovf : e.OVF with
  | wrap =>
    have hres : residue e.W 0 = 0 := by simp [residue, fmod, floorQ]
    rw [ovf_of_wrap hovf, hscale, wrapStep, hres, if_neg fun h => absurd h.2 (not_lt.mpr hmax)]
  | saturate =>
    have hmin : (minInt e.S e.W : ℚ) ≤ 0 := Int.cast_nonpos.mpr (minInt_nonpos e.S e.W)
    rw [ovf_of_saturate hovf, hscale, saturateStep, clamp, if_neg (not_lt.mpr hmin), if_neg (not_lt.mpr hmax)]

theorem sc_zero (e : Engine) : sc e 0 = 0 := by
  have h := rnd_intCast e.RND 0
  rwa [Int.cast_zero, ← ovf_zero e] at h

/-! ## The conversions with an engine -/

section Conversions

variable {s : State} {c : Context} (h : s.ctx = some c) (x : SampleOperand)
include h

theorem exec_tosc_of_ctx : exec (.tosc x) s = .next { s with
    response := some (.ok (some (.codes (elementwise (sc c.toEngine) (loadOperand s.mem x))))) } := by
  rw [exec, execTosc, withContext_some h, complete]

theorem exec_touc_of_ctx : exec (.touc x) s = .next { s with
    response := some (.ok (some (.codes (elementwise (uc c.toEngine) (loadOperand s.mem x))))) } := by
  rw [exec, execTouc, withContext_some h, complete]

theorem exec_tobs_of_ctx : exec (.tobs x) s = .next { s with
    response := some (.ok (some (.bitStrings (elementwise (bs c.toEngine) (loadOperand s.mem x))))) } := by
  rw [exec, execTobs, withContext_some h, complete]

theorem exec_q_of_ctx_eq_next : exec (.q x) s = .next { s with
    response := some (.ok (some (.values (elementwise (qv c.toEngine) (loadOperand s.mem x))))) } := by
  rw [exec_q_of_ctx h, quantizeWith, complete]

end Conversions

/-! ## In place -/

/-- Two samples of scenario 8.6, one above the range and one below it. -/
theorem map_qv_unsigned_6_2_saturate_outside :
    [341 / 10, -12 / 10].map (qv ⟨false, 6, 2, .saturate, .truncate⟩) = [63 / 4, 0] := by
  have h := map_qv_unsigned_6_2_saturate
  simp only [List.map_cons, List.map_nil, List.cons.injEq] at h ⊢
  obtain ⟨-, hbelow, habove, -⟩ := h
  exact ⟨habove, hbelow, trivial⟩

/-- Storing again the elements a store left there leaves memory as it is. -/
theorem store_store_self {ys : List Sample} (hy : ys ≠ []) (b : BufferId) (m : Memory) :
    (m.store b ys).store b ys = m.store b ys := by
  rw [store_store hy, if_neg hy]

/-- A function that maps its own values to themselves rewrites a buffer once. -/
theorem rewriteBuffer_rewriteBuffer {f : Sample → Sample} (hf : ∀ x, f (f x) = f x) {b : BufferId} {m m' : Memory}
    (h : rewriteBuffer f b m = some m') : rewriteBuffer f b m' = some m' := by
  rw [rewriteBuffer_spec, Option.some.injEq] at h
  rw [rewriteBuffer_spec, Option.some.injEq]
  split_ifs at h with hempty
  · subst h
    rw [if_pos hempty]
  · subst h
    have hne : (m.buffer b).map f ≠ [] := by simpa using hempty
    have hmap : ((m.buffer b).map f).map f = (m.buffer b).map f := by
      rw [List.map_map]
      exact List.map_congr_left fun x _ => hf x
    rw [buffer_store_self hne, if_neg hne, hmap, store_store_self hne]

/-- `QS` on a writable buffer leaves the memory of the in-place loop. -/
theorem exec_qs_seqRW_eq_next_iff {s t : State} {c : Context} (h : s.ctx = some c) (b : BufferId) :
    exec (.qs (.seqRW b)) s = .next t ↔
      ∃ m, rewriteBuffer (qv c.toEngine) b s.mem = some m ∧ { s with mem := m, response := some (.ok none) } = t := by
  simp only [exec_qs_of_ctx h, quantizeInPlace, rewriteBuffer_spec, complete_eq_next_iff, Option.some.injEq,
    exists_eq_left']

/-! ## The statements -/

/-- Settles O35: saturated values are quantized to themselves, so the second loop stores what it finds. -/
theorem secondSaturatingQsChangesNothing : Obligations.SecondSaturatingQsChangesNothing := by
  intro s t u c b hctx hW hsat hfirst hsecond
  obtain ⟨m, hm, rfl⟩ := (exec_qs_seqRW_eq_next_iff hctx b).mp hfirst
  obtain ⟨m', hm', rfl⟩ := (exec_qs_seqRW_eq_next_iff (s := { s with mem := m, response := _ }) hctx b).mp hsecond
  have hfixed : ∀ x, qv c.toEngine (qv c.toEngine x) = qv c.toEngine x :=
    fun x => qv_qv_of_inRange hW (sc_inRange_of_saturate hsat x)
  obtain rfl := Option.some.inj ((rewriteBuffer_rewriteBuffer hfixed hm).symm.trans hm')
  rfl

/-- Settles O32: the in-place rewrite with the engine the bundle validates to, and the validator's errors. -/
theorem qs1ConstructsThenQuantizesInPlace : Obligations.Qs1ConstructsThenQuantizesInPlace := by
  refine ⟨fun _ _ => rfl, ?valid, ?width, ?policies, ?ruleExample⟩
  case valid =>
    intro s bd o r hW ho hr
    have hvalid := validate_of_codes hW ho hr
    refine ⟨fun b => ?_, fun x => exec_qs1_of_ok hvalid (.scalar x) s, fun xs => exec_qs1_of_ok hvalid (.seqRO xs) s⟩
    rw [exec_qs1_of_ok hvalid]
    exact quantizeInPlace_seqRW _ b s
  case width => exact fun s bd x hW => exec_qs1_of_error (validate_of_nonpos hW) x s
  case policies =>
    intro s bd x hW hunknown
    exact exec_qs1_of_error (validate_eq_invalidPolicy hW (not_policiesKnown_iff.mp hunknown)) x s
  case ruleExample =>
    intro s b hbuffer
    have hvalid : validate ⟨⟨false, 6, 2⟩, 1#2, 0#3⟩ = .ok ⟨false, 6, 2, .saturate, .truncate⟩ :=
      validate_of_codes (by decide) rfl rfl
    obtain ⟨m, hnext, hself, -⟩ := quantizeInPlace_seqRW ⟨false, 6, 2, .saturate, .truncate⟩ b s
    refine ⟨m, (exec_qs1_of_ok hvalid _ s).trans hnext, ?_⟩
    rw [hself, hbuffer, map_qv_unsigned_6_2_saturate_outside]

/-- Settles O29: the operand's samples by its kind, each through the scalar function. -/
theorem codeCommandsAnswerElementwise : Obligations.CodeCommandsAnswerElementwise := by
  intro s c hctx code ucode
  exact ⟨fun x => exec_tosc_of_ctx hctx (.scalar x), fun xs => exec_tosc_of_ctx hctx (.seqRO xs),
    fun b => exec_tosc_of_ctx hctx (.seqRW b), fun x => exec_touc_of_ctx hctx (.scalar x),
    fun xs => exec_touc_of_ctx hctx (.seqRO xs), fun b => exec_touc_of_ctx hctx (.seqRW b), sc_zero c.toEngine⟩

/-- Settles O30, in the same form; the quantized value is the code over the library's power of two. -/
theorem textAndValueCommandsAnswerElementwise : Obligations.TextAndValueCommandsAnswerElementwise := by
  intro s c hctx text value
  have hvalue : value = qv c.toEngine := funext fun x => (qv_eq_div_zpow c.toEngine x).symm
  rw [hvalue]
  exact ⟨fun x => exec_tobs_of_ctx hctx (.scalar x), fun xs => exec_tobs_of_ctx hctx (.seqRO xs),
    fun b => exec_tobs_of_ctx hctx (.seqRW b), fun x => exec_q_of_ctx_eq_next hctx (.scalar x),
    fun xs => exec_q_of_ctx_eq_next hctx (.seqRO xs), fun b => exec_q_of_ctx_eq_next hctx (.seqRW b)⟩

end Sys2Proof.Machine
end
